-- ==== Sys2Proof/Word.lean ====
section
/-! DEFINITION. The words of the block: bytes (R5), request words (R50) and response words (R54). -/

namespace Sys2Proof

/-- A byte: 8 bits, bit 7 the most significant (R5). -/
abbrev Byte := BitVec 8

/-- A request word `REQ`: 24 bits (R50). -/
abbrev ReqWord := BitVec 24

/-- A response word `RSP`: 10 bits (R54). -/
abbrev RspWord := BitVec 10

end Sys2Proof
end

