-- ==== Sys2Proof/Config.lean ====
section
/-! DEFINITION. The constants the document fixes and the one parameter of the implementation (R4). No value is left free:
every value an operation leaves is stated by a rule. -/

namespace Sys2Proof.Config

/-- `POLY`: the low 8 bits of the CRC polynomial (R4, R82). -/
def poly : Byte := 0x31

/-- `INIT`: the accumulator's start value for every word (R4, R81). -/
def init : Byte := 0xFF

/-- `WORD`: data bytes covered by one checksum byte (R4). -/
def wordBytes : Nat := 2

/-- `STRIDE`: bytes per framed word, `WORD` data bytes and one checksum byte (R4, R58). -/
def stride : Nat := wordBytes + 1

/-- `HDR`: length of the command word that opens an outbound buffer (R4, R60). -/
def hdr : Nat := 2

/-- `BUF_SIZE`: capacity of the frame buffer. The spec leaves 60 to 255 open to a model and fixes 64 for this hardware
(R4, D2, U15). Log entry 1. -/
def bufSize : Nat := 64

end Sys2Proof.Config
end

