-- ==== Sys2Proof/Syntax.lean ====
section
/-! DEFINITION. The syntax of the request operations: one constructor per row of spec/opcode_table.json (R52). Operands are
the raw 8-bit fields of the request, unsigned, neither extended nor scaled (R51). -/

namespace Sys2Proof

/-- The ten operations of the opcode map (R52). -/
inductive Instr where
  /-- `CRCW b0, b1`: checksum of one word (R85). -/
  | crcw (b0 b1 : Byte)
  /-- `ENCF`: encode by filling the slots (R93). -/
  | encf
  /-- `ENCI`: encode by inserting into packed data (R94). -/
  | enci
  /-- `DEC`: validate every checksum, then strip them (R109). -/
  | dec
  /-- `CLRB`: empty the buffer (R120). -/
  | clrb
  /-- `PUSH val`: append one byte (R121). -/
  | push (val : Byte)
  /-- `WRB idx, val`: overwrite the byte at an index (R122). -/
  | wrb (idx val : Byte)
  /-- `RDB idx`: read the byte at an index (R123). -/
  | rdb (idx : Byte)
  /-- `GETL`: read the buffer length (R124). -/
  | getl
  /-- `GETS`: read the status view (R125). -/
  | gets
deriving DecidableEq, Repr

end Sys2Proof
end

