-- ==== Sys2Proof/WellFormed.lean ====
section
/-! DEFINITION. The four fields of a request (R50), the formats (R51) and what makes a request illegal (R53). Every term of
`Instr` has 8-bit operands by its type, so what can be ill-formed is a request's field values; `Fields.check` names the first
condition of R53 that a request breaks, and `Instr.wf` asks it of the field values an instruction stands for. -/

namespace Sys2Proof

/-- The four fields of a request word (R50). -/
structure Fields where
  /-- Bits 23:20, the operation code. -/
  op : BitVec 4
  /-- Bits 19:16, reserved, must be 0. -/
  rsv : BitVec 4
  /-- Bits 15:8, the first operand. -/
  a : Byte
  /-- Bits 7:0, the second operand. -/
  b : Byte
deriving DecidableEq, Repr

/-- The four formats (R51). -/
inductive Format where
  /-- No operand: `a` and `b` must be 0. -/
  | N
  /-- One byte value in `b`: `a` must be 0. -/
  | V
  /-- One buffer index in `a`: `b` must be 0. -/
  | I
  /-- Two operands. -/
  | W
deriving DecidableEq, Repr

/-- The format marks `a` as 0 (R51). -/
def Format.aMustBeZero : Format → Bool
  | .N | .V => true
  | .I | .W => false

/-- The format marks `b` as 0 (R51). -/
def Format.bMustBeZero : Format → Bool
  | .N | .I => true
  | .V | .W => false

/-- The format an operation code fixes; none for the reserved codes 0x0 and 0xB to 0xF (R51, R52). -/
def formatOf (op : BitVec 4) : Option Format :=
  match op.toNat with
  | 0x1 | 0x7 => some .W
  | 0x2 | 0x3 | 0x4 | 0x5 | 0x9 | 0xA => some .N
  | 0x6 => some .V
  | 0x8 => some .I
  | _ => none

/-- The conditions of R53, one name each. -/
inductive Illegal where
  /-- `op` is 0x0 or 0xB to 0xF. -/
  | reservedOp
  /-- `rsv != 0`. -/
  | reservedField
  /-- The format marks `a` as 0 and `a != 0`. -/
  | firstOperand
  /-- The format marks `b` as 0 and `b != 0`. -/
  | secondOperand
deriving DecidableEq, Repr

/-- The first condition of R53 that holds of a request, none if the request is legal. -/
def Fields.check (f : Fields) : Option Illegal :=
  match formatOf f.op with
  | none => some .reservedOp
  | some fmt =>
    if f.rsv ≠ 0 then some .reservedField
    else if fmt.aMustBeZero && f.a != 0 then some .firstOperand
    else if fmt.bMustBeZero && f.b != 0 then some .secondOperand
    else none

/-- A request is legal when no condition of R53 holds. -/
def Fields.wf (f : Fields) : Bool := f.check.isNone

/-- The field values of an instruction (R51, R52, R56). -/
def Instr.fields : Instr → Fields
  | .crcw b0 b1   => ⟨0x1, 0, b0, b1⟩
  | .encf         => ⟨0x2, 0, 0, 0⟩
  | .enci         => ⟨0x3, 0, 0, 0⟩
  | .dec          => ⟨0x4, 0, 0, 0⟩
  | .clrb         => ⟨0x5, 0, 0, 0⟩
  | .push val     => ⟨0x6, 0, 0, val⟩
  | .wrb idx val  => ⟨0x7, 0, idx, val⟩
  | .rdb idx      => ⟨0x8, 0, idx, 0⟩
  | .getl         => ⟨0x9, 0, 0, 0⟩
  | .gets         => ⟨0xA, 0, 0, 0⟩

/-- An instruction is well-formed when the request it stands for is legal. -/
def Instr.wf (i : Instr) : Bool := i.fields.wf

end Sys2Proof
end

