-- ==== Sys2Proof/Decode.lean ====
section
/-! DEFINITION. The decoder, total on every 24-bit word and rejecting by name (R50 to R53), then the encoder written from the
same field layout (R50, R56), and the numbering of spec/opcode_table.json. A request is one 24-bit word of the request port;
the spec gives it no byte order, and none is invented. -/

namespace Sys2Proof

/-- The four fields of a request word (R50). -/
def fieldsOf (w : ReqWord) : Fields where
  op := w.extractLsb' 20 4
  rsv := w.extractLsb' 16 4
  a := w.extractLsb' 8 8
  b := w.extractLsb' 0 8

/-- The operation an operation code names, given the two operand fields (R52). -/
def operationOf (op : BitVec 4) (a b : Byte) : Option Instr :=
  match op.toNat with
  | 0x1 => some (.crcw a b)
  | 0x2 => some .encf
  | 0x3 => some .enci
  | 0x4 => some .dec
  | 0x5 => some .clrb
  | 0x6 => some (.push b)
  | 0x7 => some (.wrb a b)
  | 0x8 => some (.rdb a)
  | 0x9 => some .getl
  | 0xA => some .gets
  | _ => none

/-- A request's operation, or the condition of R53 that makes it illegal. -/
def decodeFields (f : Fields) : Except Illegal Instr :=
  match f.check with
  | some reason => .error reason
  | none =>
    match operationOf f.op f.a f.b with
    | some i => .ok i
    | none => .error .reservedOp

/-- The decoder: every 24-bit word is one of the ten operations with its operands, or illegal (R53). -/
def decode (w : ReqWord) : Except Illegal Instr := decodeFields (fieldsOf w)

/-- The request word of four field values: `op` highest, then `rsv`, `a`, `b` (R50). -/
def wordOf (f : Fields) : ReqWord := f.op ++ f.rsv ++ f.a ++ f.b

/-- The encoder: an instruction's one request word (R56). -/
def encode (i : Instr) : ReqWord := wordOf i.fields

/-- The request word whose bits are the low `nbits` bits of `w`, every bit above them 0. -/
def tableWord (nbits w : Nat) : ReqWord := BitVec.ofNat 24 (w % 2 ^ nbits)

/-- What the decoder reads from an instruction of the opcode table's numbering: a request is one 24-bit word, bit 0 its least
significant bit, and no request is longer. -/
def decodeTableWord (nbits w : Nat) : Option Instr :=
  if nbits ≤ 24 then (decode (tableWord nbits w)).toOption else none

end Sys2Proof
end

