-- ==== Sys2Proof/Machine/State.lean ====
section
/-! DEFINITION. The machine's state as plain data: the five elements of R10, the host's coming moves and the responses given.
The machine stops in no state, so `Fault` has no constructor. -/

namespace Sys2Proof.Machine

/-- The frame buffer's bytes, a sparse list of (index, byte) cells; `Memory.wf` of Machine/Ops.lean is its canonical form
(R11, R30). -/
abbrev Memory := List Host.Cell

/-- A move of the host agent (R8): it issues one request word, or asserts the reset input `RST` (R180). -/
inductive HostEvent where
  /-- A 24-bit word on the request port (R50). -/
  | request (w : ReqWord)
  /-- The reset input (R180). It is no request and gets no response. -/
  | rst
deriving DecidableEq, Repr

/-- The result code of a response: code 3 is never produced, so it has no name (R54, U11). -/
inductive Res where
  /-- Code 0: the operation completed. -/
  | ok
  /-- Code 1: DEC found a checksum mismatch. -/
  | ckerr
  /-- Code 2: the request raised a fault, or was refused while `FAULT = 1`. -/
  | fault
deriving DecidableEq, Repr

/-- One response: the result code and the result data (R54). -/
structure Response where
  res : Res
  rdata : Byte
deriving DecidableEq, Repr

/-- The architectural state (R10) with the two ports' streams. -/
structure State where
  /-- `BUF`: the bytes at indices below `LEN` (R11). -/
  buf : Memory
  /-- `LEN`: the number of bytes in `BUF` (R12). -/
  len : BitVec 8
  /-- `CKERR`: the most recent DEC found a mismatch (R13). -/
  ckerr : Bool
  /-- `FAULT`: a contract violation has happened since reset (R14). -/
  fault : Bool
  /-- `FCAUSE`: the cause code of that fault, 0 when there is none (R14, R163). -/
  fcause : BitVec 3
  /-- The host's coming moves, the next one first (R8, R36). The model's own field: log entry 4. -/
  pending : List HostEvent
  /-- The responses given so far, the oldest first (R54, R190). The model's own field: log entry 5. -/
  responses : List Response
deriving DecidableEq, Repr

/-- The reasons the machine stops with a fault: none. A fault of the spec is a next state with `FAULT = 1` (R165), so nothing
raises a value of this type (safe). -/
inductive Fault where
deriving DecidableEq, Repr

/-- The reasons an instruction has no meaning. -/
inductive Refusal where
  /-- Raised by an arm of `exec` whose instruction has no meaning yet; no arm of this model raises it (safe). -/
  | notModelled (mnemonic : String)
deriving DecidableEq, Repr

/-- The state after reset (R20, R181); the ports' streams are empty (log entries 4 and 5). -/
def State.reset : State where
  buf := []
  len := 0
  ckerr := false
  fault := false
  fcause := 0
  pending := []
  responses := []

end Sys2Proof.Machine
end

