-- ==== Sys2Proof/Machine/Ops.lean ====
section
/-! DEFINITION. The shared operations: reading and writing the frame buffer, giving a response, entering a fault (the block's
one exception) and the reset that is the only way out of it. -/

namespace Sys2Proof.Machine

/-! ### The frame buffer (20_memory.md) -/

/-- What an unlisted index reads as, the ONE such definition. No request reads an index that `LEN` does not admit (R11), so
this says only which byte of `BUF` needs no cell. DESIGN CHOICE, log entry 2. -/
def Memory.unlisted : Byte := 0x00

/-- The byte of the cell at index `i`. -/
def Memory.read : Memory → Nat → Byte
  | [], _ => Memory.unlisted
  | c :: m, i => if c.1 = i then c.2 else Memory.read m i

/-- A cell put before a memory, unless it says what an unlisted index reads as. -/
def Memory.cons (i : Nat) (v : Byte) (m : Memory) : Memory :=
  if v = Memory.unlisted then m else (i, v) :: m

/-- The memory with byte `v` at index `i` (`BUF[i] <- v`, R6). -/
def Memory.write : Memory → Nat → Byte → Memory
  | [], i, v => Memory.cons i v []
  | c :: m, i, v =>
    if i < c.1 then Memory.cons i v (c :: m)
    else if i = c.1 then Memory.cons i v m
    else c :: Memory.write m i v

/-- The memory that holds the bytes `bs` from index `i` up. -/
def Memory.ofBytesFrom (i : Nat) : List Byte → Memory
  | [] => []
  | b :: bs => Memory.cons i b (Memory.ofBytesFrom (i + 1) bs)

/-- The memory that holds the byte sequence `bs` from index 0 (R11). -/
def Memory.ofBytes (bs : List Byte) : Memory := Memory.ofBytesFrom 0 bs

/-- The canonical form: indices strictly rising, and no cell that says what an unlisted index reads as. -/
abbrev Memory.wf (m : Memory) : Prop :=
  m.Pairwise (fun c d => c.1 < d.1) ∧ ∀ c ∈ m, c.2 ≠ Memory.unlisted

/-- `BUF[i]`, which exists exactly when `i < LEN` (R11, R30). -/
def State.byte? (s : State) (i : Nat) : Option Byte :=
  if i < s.len.toNat then some (s.buf.read i) else none

/-- The byte sequence `BUF[0..LEN-1]` (R11). -/
def State.bytes (s : State) : List Byte := (List.range s.len.toNat).map s.buf.read

/-- Replace the bytes of `BUF` and leave `LEN` as it is: what encode does (R93, R94). -/
def State.overwrite (s : State) (bs : List Byte) : State :=
  { s with buf := Memory.ofBytes bs }

/-- Make `BUF` the byte sequence `bs`, `LEN` its length: what a successful decode does (R109). -/
def State.load (s : State) (bs : List Byte) : State :=
  { s with buf := Memory.ofBytes bs, len := BitVec.ofNat 8 bs.length }

/-- Append one byte: `LEN <- LEN + 1; BUF[LEN - 1] <- val` (R121). -/
def State.append (s : State) (val : Byte) : State :=
  { s with buf := s.buf.write s.len.toNat val, len := s.len + 1 }

/-- Overwrite the byte at an index: `BUF[idx] <- val` (R122). -/
def State.store (s : State) (idx : Nat) (val : Byte) : State :=
  { s with buf := s.buf.write idx val }

/-- The empty buffer: `LEN <- 0`, so `BUF` is the empty sequence (R120). -/
def State.clear (s : State) : State := { s with buf := [], len := 0 }

/-! ### Responses (R54) -/

/-- The code of a result in `res` (R54). -/
def Res.code : Res → BitVec 2
  | .ok => 0
  | .ckerr => 1
  | .fault => 2

/-- The 10-bit response word: `res` in bits 9:8, `rdata` in bits 7:0 (R54). -/
def Response.word (r : Response) : RspWord := r.res.code ++ r.rdata

/-- The state with one more response given. -/
def State.answer (s : State) (res : Res) (rdata : Byte) : State :=
  { s with responses := s.responses ++ [⟨res, rdata⟩] }

/-- `respond(res, rdata)`: the operation ends and returns its response (R6). -/
def respond (res : Res) (rdata : Byte) (s : State) : Host.Outcome State Fault Refusal :=
  .next (s.answer res rdata)

/-! ### Faults (60_exceptions.md) -/

/-- The fault causes (R163). -/
inductive Cause where
  | illegalRequest
  | encLength
  | decLength
  | indexRange
  | overflow
deriving DecidableEq, Repr

/-- The cause's code in `FCAUSE` (R163). -/
def Cause.code : Cause → BitVec 3
  | .illegalRequest => 1
  | .encLength => 2
  | .decLength => 3
  | .indexRange => 4
  | .overflow => 5

/-- The state a fault leaves: `FAULT` and `FCAUSE` written, nothing else but the response (R165). -/
def State.faulted (s : State) (c : Cause) : State :=
  { s with fault := true, fcause := c.code }

/-- `raise Fault(cause)`, the block's one way to take an exception: no handler, no vector, nothing saved (R6, R165). -/
def raiseFault (c : Cause) (s : State) : Host.Outcome State Fault Refusal :=
  respond .fault 0x00 (s.faulted c)

/-- The refusal of a request while `FAULT = 1`: the response and no state change (R166). -/
def refuseRequest (s : State) : Host.Outcome State Fault Refusal :=
  respond .fault 0x00 s

/-- The first check of every request but the well-formed GETS: `if FAULT = 1: respond(2, 0x00)` (R164, R166). -/
def unlessFaulted (s : State) (k : Host.Outcome State Fault Refusal) : Host.Outcome State Fault Refusal :=
  if s.fault then refuseRequest s else k

/-- The whole effect of an illegal request word: refused in the faulted state, else cause 1 (R53, R163, R164). -/
def illegalRequest (s : State) : Host.Outcome State Fault Refusal :=
  unlessFaulted s (raiseFault .illegalRequest s)

/-- The reset input, the only way out of the faulted state: the five elements take their reset values; the host's coming moves
and the responses already given are not the block's to change (R20, R167, R180; log entry 8). -/
def State.afterReset (s : State) : State :=
  { State.reset with pending := s.pending, responses := s.responses }

end Sys2Proof.Machine
end

