-- ==== Sys2Proof/Machine/Operands.lean ====
section
/-! DEFINITION. The operand forms (R51): a byte value, used as it stands; a buffer index, compared with `LEN` as a natural
number; and the implicit operand of the codec operations, the whole buffer, with the lengths they admit. -/

namespace Sys2Proof.Machine

/-- The byte an index operand names, none when `idx >= LEN` (R51, R123). -/
def indexed (idx : Byte) (s : State) : Option Byte := s.byte? idx.toNat

/-- The lengths encode passes through: 0, 1 and 2 (R91; C3). -/
def encPassesThrough (n : Nat) : Bool := n ≤ Config.hdr

/-- The number of data words of an outbound frame of length `n` (R32, R90). -/
def encWords (n : Nat) : Nat := (n - Config.hdr) / Config.stride

/-- A length above 2 that encode admits: `2 + 3k` (R92). -/
def encAdmits (n : Nat) : Bool := (n - Config.hdr) % Config.stride = 0

/-- A length decode admits: `3k` (R107). -/
def decAdmits (n : Nat) : Bool := n % Config.stride = 0

end Sys2Proof.Machine
end

