-- ==== Sys2Proof/Machine/Flags.lean ====
section
/-! DEFINITION. The condition flag `CKERR` (R13) and the `STATUS` view of the three flag elements (R15). -/

namespace Sys2Proof.Machine

/-- `STATUS = CKERR | (FAULT << 1) | (FCAUSE << 2)`, bits 7:5 zero (R15, R125). -/
def State.status (s : State) : Byte :=
  (BitVec.ofBool s.ckerr).setWidth 8 ||| ((BitVec.ofBool s.fault).setWidth 8 <<< 1) ||| (s.fcause.setWidth 8 <<< 2)

/-- `CKERR <- v`; only DEC does it (R13). -/
def State.setCkerr (s : State) (v : Bool) : State := { s with ckerr := v }

end Sys2Proof.Machine
end

