-- ==== Sys2Proof/Machine/Checksum.lean ====
section
/-! DEFINITION. The Checksum Engine (40_checksum.md): the function and the operation CRCW. -/

namespace Sys2Proof.Machine

/-- One of the 8 iterations of R80: the top bit is tested on the value being shifted, the bit shifted out is dropped. -/
def crc8Shift (acc : Byte) : Byte :=
  if acc.getLsbD 7 then (acc <<< 1) ^^^ Config.poly else acc <<< 1

/-- `crc8_byte(acc, x)` (R80). -/
def crc8Byte (acc x : Byte) : Byte := crc8Shift^[8] (acc ^^^ x)

/-- `crc8_word(b0, b1)`, `b0` the byte at the lower index: no reflection, no final exclusive or, the accumulator fresh for
every word (R81, R88). -/
def crc8Word (b0 b1 : Byte) : Byte := crc8Byte (crc8Byte Config.init b0) b1

/-- The table `T` of R84. -/
def crcTable (x : Byte) : Byte := crc8Byte 0x00 x

/-- The table form of the word checksum (R84). -/
def crc8WordByTable (b0 b1 : Byte) : Byte := crcTable (crcTable (Config.init ^^^ b0) ^^^ b1)

/-- `L(e0, e1)`, the checksum's change under an error pattern on the two data bytes (R86 (b)). -/
def crcError (e0 e1 : Byte) : Byte := crcTable (crcTable e0 ^^^ e1)

/-- CRCW (R85). -/
def execCrcw (b0 b1 : Byte) (s : State) : Host.Outcome State Fault Refusal :=
  unlessFaulted s (respond .ok (crc8Word b0 b1) s)

end Sys2Proof.Machine
end

