-- ==== Sys2Proof/Machine/FrameEncode.lean ====
section
/-! DEFINITION. The Frame Codec, outbound (41_frame_encode.md): the functions on byte sequences, then ENCF and ENCI. -/

namespace Sys2Proof.Machine

/-- Fill the slot of every data word of a frame's body; a slot's old content is not read (R90). -/
def fillSlots : List Byte → List Byte
  | d0 :: d1 :: _ :: body => d0 :: d1 :: crc8Word d0 d1 :: fillSlots body
  | rest => rest

/-- `enc(s)`, the fill reading: lengths 0, 1 and 2 pass through, the command word is copied (R90, R91). It is applied only to
the lengths R92 admits. -/
def enc : List Byte → List Byte
  | c0 :: c1 :: body => c0 :: c1 :: fillSlots body
  | rest => rest

/-- The framed words of packed data (R58, R96). -/
def frameWords : List Byte → List Byte
  | d0 :: d1 :: d => d0 :: d1 :: crc8Word d0 d1 :: frameWords d
  | _ => []

/-- `frame(c, d)`: command word `c`, then the framed words of `d` (R96). -/
def frame (c d : List Byte) : List Byte := c ++ frameWords d

/-- `encI(s)`, the insert reading: the data packed at 2 to `1 + 2k`, the last `k` bytes ignored (R96). It is applied only to
the lengths R92 admits. -/
def encI (s : List Byte) : List Byte :=
  if encPassesThrough s.length then s
  else frame (s.take Config.hdr) ((s.drop Config.hdr).take (Config.wordBytes * encWords s.length))

/-- One insertion of the document's literal procedure: the bytes at offsets `i` to `|s| - 2` move one place up, the last byte
falls off, and the checksum of the two bytes before `i` stands at `i` (R96). -/
def insertSlot (s : List Byte) (i : Nat) : List Byte :=
  s.take i ++ crc8Word (s.getD (i - 2) 0) (s.getD (i - 1) 0) :: (s.drop i).dropLast

/-- The document's literal procedure: insertions at 4, 7, ..., `1 + 3k`, in ascending order (R96). -/
def encInPlace (s : List Byte) : List Byte :=
  if encPassesThrough s.length then s
  else (List.range (encWords s.length)).foldl (fun t j => insertSlot t (4 + Config.stride * j)) s

/-- The common shape of the two encode operations: pass-through, the length fault, else the new bytes; `LEN` and `CKERR` are not
touched (R93, R94). -/
def encodeBuffer (f : List Byte → List Byte) (s : State) : Host.Outcome State Fault Refusal :=
  unlessFaulted s <|
    if encPassesThrough s.len.toNat then respond .ok 0x00 s
    else if encAdmits s.len.toNat then respond .ok 0x00 (s.overwrite (f s.bytes))
    else raiseFault .encLength s

/-- ENCF (R93). -/
def execEncf (s : State) : Host.Outcome State Fault Refusal := encodeBuffer enc s

/-- ENCI (R94). -/
def execEnci (s : State) : Host.Outcome State Fault Refusal := encodeBuffer encI s

end Sys2Proof.Machine
end

