-- ==== Sys2Proof/Machine/FrameDecode.lean ====
section
/-! DEFINITION. The Frame Codec, inbound (42_frame_decode.md): the functions on byte sequences, then DEC. -/

namespace Sys2Proof.Machine

/-- Every framed word's checksum byte is the checksum of its two data bytes, lowest offset first, stopping at the first
mismatch (R105, R106). -/
def checksumsMatch : List Byte → Bool
  | d0 :: d1 :: c :: s => crc8Word d0 d1 == c && checksumsMatch s
  | _ => true

/-- The data bytes of framed words, in order (R105). -/
def dataBytes : List Byte → List Byte
  | d0 :: d1 :: _ :: s => d0 :: d1 :: dataBytes s
  | _ => []

/-- The result of decode (R105): the error has no payload (R106). -/
inductive Decoded where
  | ok (t : List Byte)
  | checksumError
deriving DecidableEq, Repr

/-- `dec(s)`: all checksums are validated on the original sequence, then all are stripped (R105, R108). It is applied only to
the lengths R107 admits. -/
def dec (s : List Byte) : Decoded :=
  if checksumsMatch s then .ok (dataBytes s) else .checksumError

/-- The in-place compaction after `j` removals: the next checksum byte to go stands at offset `2j + 2` (R108). -/
def compacted (s : List Byte) : Nat → List Byte
  | 0 => s
  | j + 1 => (compacted s j).eraseIdx (2 * j + 2)

/-- DEC (R109): a mismatch writes `CKERR` and nothing else (R110). -/
def execDec (s : State) : Host.Outcome State Fault Refusal :=
  unlessFaulted s <|
    if decAdmits s.len.toNat then
      match dec s.bytes with
      | .ok t => respond .ok 0x00 ((s.load t).setCkerr false)
      | .checksumError => respond .ckerr 0x00 (s.setCkerr true)
    else raiseFault .decLength s

end Sys2Proof.Machine
end

