-- ==== Sys2Proof/Machine/Buffer.lean ====
section
/-! DEFINITION. The buffer and status operations CLRB, PUSH, WRB, RDB, GETL, GETS (43_buffer_ops.md). -/

namespace Sys2Proof.Machine

/-- CLRB (R120): `CKERR` is not cleared. -/
def execClrb (s : State) : Host.Outcome State Fault Refusal :=
  unlessFaulted s (respond .ok 0x00 s.clear)

/-- PUSH (R121). -/
def execPush (val : Byte) (s : State) : Host.Outcome State Fault Refusal :=
  unlessFaulted s <|
    if s.len.toNat = Config.bufSize then raiseFault .overflow s
    else respond .ok 0x00 (s.append val)

/-- WRB (R122): it cannot extend the buffer. -/
def execWrb (idx val : Byte) (s : State) : Host.Outcome State Fault Refusal :=
  unlessFaulted s <|
    match indexed idx s with
    | none => raiseFault .indexRange s
    | some _ => respond .ok 0x00 (s.store idx.toNat val)

/-- RDB (R123): no side effect. -/
def execRdb (idx : Byte) (s : State) : Host.Outcome State Fault Refusal :=
  unlessFaulted s <|
    match indexed idx s with
    | none => raiseFault .indexRange s
    | some b => respond .ok b s

/-- GETL (R124). -/
def execGetl (s : State) : Host.Outcome State Fault Refusal :=
  unlessFaulted s (respond .ok s.len s)

/-- GETS (R125): the one request that is executed while `FAULT = 1`; nothing is cleared by the read. -/
def execGets (s : State) : Host.Outcome State Fault Refusal :=
  respond .ok s.status s

end Sys2Proof.Machine
end

