-- ==== Sys2Proof/Machine/Dispatch.lean ====
section
/-! DEFINITION. The dispatch: one arm per operation of the opcode map (R52). -/

namespace Sys2Proof.Machine

def exec (i : Instr) (s : State) : Host.Outcome State Fault Refusal :=
  match i with
  | .crcw b0 b1 => Sys2Proof.Machine.execCrcw b0 b1 s
  | .encf => Sys2Proof.Machine.execEncf s
  | .enci => Sys2Proof.Machine.execEnci s
  | .dec => Sys2Proof.Machine.execDec s
  | .clrb => Sys2Proof.Machine.execClrb s
  | .push val => Sys2Proof.Machine.execPush val s
  | .wrb idx val => Sys2Proof.Machine.execWrb idx val s
  | .rdb idx => Sys2Proof.Machine.execRdb idx s
  | .getl => Sys2Proof.Machine.execGetl s
  | .gets => Sys2Proof.Machine.execGets s

end Sys2Proof.Machine
end

