-- ==== Sys2Proof/Machine/Port.lean ====
section
/-! DEFINITION. The request port and the reset input: taking the host's next move and serving it (R8, R36, R180). -/

namespace Sys2Proof.Machine

/-- The host's next move, and the state in which it has been taken from the port. -/
def takeEvent (s : State) : Option (HostEvent × State) :=
  match s.pending with
  | [] => none
  | e :: rest => some (e, { s with pending := rest })

/-- A request word is served: its operation if it is legal, the illegal request if not (R52, R53, R164). -/
def serveRequest (w : ReqWord) (s : State) : Host.Outcome State Fault Refusal :=
  match decode w with
  | .ok i => exec i s
  | .error _ => illegalRequest s

/-- A host move is served. -/
def serveEvent (e : HostEvent) (s : State) : Host.Outcome State Fault Refusal :=
  match e with
  | .request w => serveRequest w s
  | .rst => .next s.afterReset

/-- With no host move there is nothing to do: the block stays ready and nothing changes (R8, R190; log entry 6). -/
def idle (s : State) : Host.Outcome State Fault Refusal := .next s

end Sys2Proof.Machine
end

