-- ==== Sys2Proof/Machine/Step.lean ====
section
/-! DEFINITION. One step of the machine: the block serves the host's next move, atomically (R8, R33, R36). -/

namespace Sys2Proof.Machine

/-- One step: every request is complete, its response given, when the step ends (R33, R36, R189). -/
def step (s : State) : Host.Outcome State Fault Refusal :=
  match takeEvent s with
  | none => idle s
  | some (e, s') => serveEvent e s'

/-- The state whose next host move is the request whose bits are the low `nbits` bits of `w`; every later move waits behind it.
Programs come from outside the machine: log entry 4. -/
def State.withFetchWord (s : State) (nbits w : Nat) : State :=
  { s with pending := .request (tableWord nbits w) :: s.pending }

end Sys2Proof.Machine
end

