-- ==== Sys2Proof/Machine/Pseudo.lean ====
section
/-! DEFINITION. The pseudo-instructions (R57): each expands to operations and adds no meaning of its own. -/

namespace Sys2Proof.Machine

/-- The four pseudo-instructions (R57). -/
inductive Pseudo where
  /-- Make `BUF` the given sequence. -/
  | loadb (bs : List Byte)
  /-- Build an outbound frame from a command word and data words, placeholder slots pre-placed. -/
  | framef (c0 c1 : Byte) (d : List Byte)
  /-- Build the same frame from packed data in a pre-sized buffer. -/
  | framei (c0 c1 : Byte) (d : List Byte)
  /-- Validate and strip a received frame. -/
  | unframe (r : List Byte)
deriving DecidableEq, Repr

/-- The operand counts R57 gives: `2k` data bytes, `3k` received bytes. -/
def Pseudo.wf : Pseudo → Bool
  | .loadb _ => true
  | .framef _ _ d | .framei _ _ d => d.length % Config.wordBytes = 0
  | .unframe r => r.length % Config.stride = 0

/-- The placeholder value the pseudo-instructions write, which is never read (R57, R93). -/
def placeholder : Byte := 0x00

/-- Data words with a placeholder slot after each (R57). -/
def withSlots : List Byte → List Byte
  | d0 :: d1 :: d => d0 :: d1 :: placeholder :: withSlots d
  | _ => []

/-- `LOADB`'s expansion: CLRB, then one PUSH for each byte (R57). -/
def loadOps (bs : List Byte) : List Instr := .clrb :: bs.map .push

/-- The expansions (R57). -/
def Pseudo.expand : Pseudo → List Instr
  | .loadb bs => loadOps bs
  | .framef c0 c1 d => loadOps (c0 :: c1 :: withSlots d) ++ [.encf]
  | .framei c0 c1 d =>
    loadOps (c0 :: c1 :: d ++ List.replicate (d.length / Config.wordBytes) placeholder) ++ [.enci]
  | .unframe r => loadOps r ++ [.dec]

/-- The last response given was `OK`. -/
def State.answeredOk (s : State) : Bool :=
  match s.responses.getLast? with
  | some r => r.res = .ok
  | none => false

/-- One operation after another, stopping after the first whose response is not `OK` (R57). -/
def runOps : List Instr → State → Host.Outcome State Fault Refusal
  | [], s => .next s
  | i :: is, s =>
    match exec i s with
    | .next t => if t.answeredOk then runOps is t else .next t
    | .fault r => .fault r
    | .refused r => .refused r

/-- A pseudo-instruction run to its end (R57). -/
def Pseudo.run (p : Pseudo) (s : State) : Host.Outcome State Fault Refusal := runOps p.expand s

/-- A list of operations as host moves. -/
def requestsOf (is : List Instr) : List HostEvent := is.map fun i => .request (encode i)

end Sys2Proof.Machine
end

