-- ==== Sys2Proof/Machine/Assembler.lean ====
section
/-! DEFINITION. The assembler's line syntax (R56, R57) in the number notation of R5: a mnemonic in capitals, then the operands
separated by commas; a comment runs from `;` to the end of the line. What the spec leaves open of spaces, of the case of
hexadecimal digits and of `_` between digits is log entry 7. -/

namespace Sys2Proof.Machine

/-- Why a line cannot be assembled. -/
inductive AsmError where
  /-- The mnemonic is none of R52 and R57. -/
  | unknownMnemonic
  /-- The operand count is not the one of R56 or R57. -/
  | operandCount
  /-- An operand is outside 0 to 255. -/
  | operandRange
  /-- An operand is no number in the notation of R5. -/
  | notANumber
deriving DecidableEq, Repr

/-- The value of a digit in a base (R5). -/
def digitValue (base : Nat) (c : Char) : Option Nat :=
  let v :=
    if '0' ≤ c ∧ c ≤ '9' then c.toNat - '0'.toNat
    else if 'A' ≤ c ∧ c ≤ 'F' then c.toNat - 'A'.toNat + 10
    else if 'a' ≤ c ∧ c ≤ 'f' then c.toNat - 'a'.toNat + 10
    else base
  if v < base then some v else none

/-- The number a list of digits writes, the most significant first. -/
def digitsValue (base : Nat) : Nat → List Char → Option Nat
  | acc, [] => some acc
  | acc, c :: cs => (digitValue base c).bind fun v => digitsValue base (acc * base + v) cs

/-- At least one digit. -/
def numeral (base : Nat) (cs : List Char) : Option Nat :=
  if cs.isEmpty then none else digitsValue base 0 cs

/-- A number: `0x` hexadecimal, `0b` binary, all others decimal (R5). -/
def numberOf (cs : List Char) : Option Nat :=
  match cs.filter (· ≠ '_') with
  | '0' :: 'x' :: ds => numeral 16 ds
  | '0' :: 'b' :: ds => numeral 2 ds
  | ds => numeral 10 ds

/-- A blank between the parts of a line. -/
def isBlank (c : Char) : Bool := c = ' ' || c = '\t'

/-- A part of a line without the blanks around it. -/
def trimmed (cs : List Char) : List Char :=
  ((cs.dropWhile isBlank).reverse.dropWhile isBlank).reverse

/-- One operand: a number from 0 to 255 (R56). -/
def operandOf (cs : List Char) : Except AsmError Byte :=
  match numberOf (trimmed cs) with
  | none => .error .notANumber
  | some n => if n ≤ 255 then .ok (BitVec.ofNat 8 n) else .error .operandRange

/-- The operands of a line: none, or parts separated by commas (R56). -/
def operandsOf (cs : List Char) : Except AsmError (List Byte) :=
  if (trimmed cs).isEmpty then .ok [] else (cs.splitOn ',').mapM operandOf

/-- A pseudo-instruction's expansion, if its operand count is one R57 gives. -/
def expanded (p : Pseudo) : Except AsmError (List Instr) :=
  if p.wf then .ok p.expand else .error .operandCount

/-- The operations a mnemonic and its operands stand for, the operands in field order (R56, R57). -/
def assemble (mnemonic : String) (ops : List Byte) : Except AsmError (List Instr) :=
  match mnemonic, ops with
  | "CRCW", [b0, b1] => .ok [.crcw b0 b1]
  | "ENCF", [] => .ok [.encf]
  | "ENCI", [] => .ok [.enci]
  | "DEC", [] => .ok [.dec]
  | "CLRB", [] => .ok [.clrb]
  | "PUSH", [val] => .ok [.push val]
  | "WRB", [idx, val] => .ok [.wrb idx val]
  | "RDB", [idx] => .ok [.rdb idx]
  | "GETL", [] => .ok [.getl]
  | "GETS", [] => .ok [.gets]
  | "LOADB", bs => expanded (.loadb bs)
  | "FRAMEF", c0 :: c1 :: d => expanded (.framef c0 c1 d)
  | "FRAMEI", c0 :: c1 :: d => expanded (.framei c0 c1 d)
  | "UNFRAME", r => expanded (.unframe r)
  | m, _ =>
    if m ∈ ["CRCW", "ENCF", "ENCI", "DEC", "CLRB", "PUSH", "WRB", "RDB", "GETL", "GETS", "FRAMEF", "FRAMEI"]
    then .error .operandCount else .error .unknownMnemonic

/-- The operations of one line; a line with nothing before its comment has none (R56). -/
def assembleLine (line : String) : Except AsmError (List Instr) :=
  match trimmed (line.toList.takeWhile (· ≠ ';')) with
  | [] => .ok []
  | cs => do
    let ops ← operandsOf (cs.dropWhile fun c => !isBlank c)
    assemble (String.ofList (cs.takeWhile fun c => !isBlank c)) ops

end Sys2Proof.Machine
end

