-- ==== Sys2Proof/Safety.lean ====
section
/-! DEFINITION. The invariant of every reachable state (R21, with R14 and the buffer's canonical form), and what it is for a run
to have gone wrong (R190). -/

namespace Sys2Proof.Machine

/-- R21: `LEN <= BUF_SIZE`, and `FCAUSE` is 0 when `FAULT = 0` and from 1 to 5 when `FAULT = 1` (R12, R14). Beside it, the model's
own choice of how `BUF` is held, log entry 2: the cells in canonical form, none at an index `>= LEN`. -/
structure State.Inv (s : State) : Prop where
  len_le : s.len.toNat ≤ Config.bufSize
  buf_wf : s.buf.wf
  buf_below : ∀ c ∈ s.buf, c.1 < s.len.toNat
  no_cause : s.fault = false → s.fcause = 0
  cause_pos : s.fault = true → 1 ≤ s.fcause.toNat
  cause_le : s.fcause.toNat ≤ 5

/-- A run has gone wrong when some response had `res = 2`; a checksum error is no such thing (R190). -/
def State.GoneWrong (s : State) : Prop := ∃ r ∈ s.responses, r.res = .fault

/-- The five architectural elements agree (R10): what the ports carry is left out. -/
def State.SameElements (s t : State) : Prop :=
  t.buf = s.buf ∧ t.len = s.len ∧ t.ckerr = s.ckerr ∧ t.fault = s.fault ∧ t.fcause = s.fcause

end Sys2Proof.Machine
end

