-- ==== Sys2Proof/Certificates/Slice0/Obligations.lean ====
section
/-! DEFINITION. The statements for the provers, one `Obligations.<Name>` each, and before them the few terms they are written in.
Next states are written out as record updates, so that each statement says what changes and that nothing else does. -/

namespace Sys2Proof.Claim
open Sys2Proof.Machine

/-- The state whose next host move is the request `w`, with `s`'s moves waiting behind it. Every state whose next move is a
request has this form. -/
def issuing (s : State) (w : ReqWord) : State := { s with pending := .request w :: s.pending }

/-- `s` with one more response and nothing else changed. -/
def answering (s : State) (res : Res) (rdata : Byte) : State :=
  { s with responses := s.responses ++ [⟨res, rdata⟩] }

/-- `s` after `raise Fault(code)`: `FAULT`, `FCAUSE` and the response, nothing else (R165). -/
def faulting (s : State) (code : BitVec 3) : State :=
  { s with fault := true, fcause := code, responses := s.responses ++ [⟨.fault, 0x00⟩] }

/-- `i` is refused while `FAULT = 1`: one response, no other change (R166). -/
def RefusedWhenFaulted (i : Instr) : Prop :=
  ∀ s, s.fault = true → exec i s = .next (answering s .fault 0x00)

/-- The request word `w` runs `i`, in every state. -/
def Spells (w : ReqWord) (i : Instr) : Prop := ∀ s, step (issuing s w) = exec i s

/-- A word with operation code `op` that does not meet `zeros` (its must-be-zero fields) raises `Fault(1)`, and is refused while
`FAULT = 1`. -/
def MalformedFaults (op : BitVec 4) (zeros : ReqWord → Prop) : Prop :=
  ∀ s w, w.extractLsb' 20 4 = op → ¬ zeros w →
    (s.fault = false → step (issuing s w) = .next (faulting s 1)) ∧
    (s.fault = true → step (issuing s w) = .next (answering s .fault 0x00))

/-- A request word is illegal (R53): a reserved operation code, a non-zero `rsv`, or a non-zero operand field that the format
marks 0. -/
abbrev IllegalWord (w : ReqWord) : Prop :=
  let op := (w.extractLsb' 20 4).toNat
  op = 0 ∨ 0xB ≤ op ∨ w.extractLsb' 16 4 ≠ 0 ∨
  (op ∈ [0x2, 0x3, 0x4, 0x5, 0x6, 0x9, 0xA] ∧ w.extractLsb' 8 8 ≠ 0) ∨
  (op ∈ [0x2, 0x3, 0x4, 0x5, 0x8, 0x9, 0xA] ∧ w.extractLsb' 0 8 ≠ 0)

/-- The checksum of the two bytes at indices `i` and `i + 1`, none if one of them does not exist. -/
def checksumAt (s : State) (i : Nat) : Option Byte :=
  (s.byte? i).bind fun d0 => (s.byte? (i + 1)).map fun d1 => crc8Word d0 d1

/-- Word `j` of the inbound frame in `BUF` has a wrong checksum byte. -/
abbrev Mismatch (s : State) (j : Nat) : Prop := checksumAt s (3 * j) ≠ s.byte? (3 * j + 2)

/-- Checks 3 to 5 of R164 for a legal request with operation code `op` and index operand `idx`: the operation's own
precondition, then DEC's checksums, then OK. The result code and the `FCAUSE` it leaves. -/
def operationOutcome (s : State) (op idx : Nat) : Res × BitVec 3 :=
  if (op = 0x2 ∨ op = 0x3) ∧ 2 < s.len.toNat ∧ (s.len.toNat - 2) % 3 ≠ 0 then (.fault, 2)
  else if op = 0x4 ∧ s.len.toNat % 3 ≠ 0 then (.fault, 3)
  else if (op = 0x7 ∨ op = 0x8) ∧ s.len.toNat ≤ idx then (.fault, 4)
  else if op = 0x6 ∧ s.len.toNat = 64 then (.fault, 5)
  else if op = 0x4 ∧ ∃ j < s.len.toNat / 3, Mismatch s j then (.ckerr, s.fcause)
  else (.ok, s.fcause)

/-- The result code of the request `w` and the `FCAUSE` it leaves, by the five checks of R164 in their order. -/
def outcome (s : State) (w : ReqWord) : Res × BitVec 3 :=
  if s.fault = true ∧ w ≠ 0xA00000 then (.fault, s.fcause)
  else if IllegalWord w then (.fault, 1)
  else operationOutcome s (w.extractLsb' 20 4).toNat (w.extractLsb' 8 8).toNat

/-- `n` steps of the machine, stopping where it stops: the host's `Core.run` of this machine. -/
def run : Nat → State → Host.Outcome State Fault Refusal
  | 0, s => .next s
  | n + 1, s =>
    match step s with
    | .next t => run n t
    | .fault r => .fault r
    | .refused r => .refused r

/-- `s` with the operations `is` as the host's next moves. -/
def queued (is : List Instr) (s : State) : State := { s with pending := requestsOf is ++ s.pending }

/-- Packed data `d` with slot contents `p` after each data word. -/
def slotted : List Byte → List Byte → List Byte
  | d0 :: d1 :: d, p0 :: p => d0 :: d1 :: p0 :: slotted d p
  | _, _ => []

/-- The error pattern `(e0, e1, ec)` exclusive-ored onto framed word `j` of a frame (R86 (c)). -/
def corrupted (s : List Byte) (j : Nat) (e0 e1 ec : Byte) : List Byte :=
  ((s.modify (3 * j) (· ^^^ e0)).modify (3 * j + 1) (· ^^^ e1)).modify (3 * j + 2) (· ^^^ ec)

/-- The number of set bits of a byte. -/
def ones (b : Byte) : Nat := (List.range 8).countP fun i => b.getLsbD i

end Sys2Proof.Claim

open Sys2Proof Sys2Proof.Machine Sys2Proof.Claim

/-! ### The Checksum Engine (40_checksum.md) -/

/-- R80 and R81 on numbers: an iteration doubles the accumulator modulo 256 and exclusive-ors 0x31 when the top bit was set; a
byte takes exactly 8 of them; a word takes its two bytes in order from 0xFF. -/
def Obligations.ChecksumFollowsTheBitAlgorithm : Prop :=
  (∀ acc : Byte, (crc8Shift acc).toNat =
    if 128 ≤ acc.toNat then Nat.xor (2 * acc.toNat % 256) 0x31 else 2 * acc.toNat % 256) ∧
  (∀ acc x : Byte, crc8Byte acc x = crc8Shift (crc8Shift (crc8Shift (crc8Shift
    (crc8Shift (crc8Shift (crc8Shift (crc8Shift (acc ^^^ x))))))))) ∧
  (∀ b0 b1 : Byte, crc8Word b0 b1 = crc8Byte (crc8Byte 0xFF b0) b1)

/-- R84, which the spec marks as derived: the table form equals the bit-by-bit form. The table is a permutation and linear over
exclusive or. -/
def Obligations.TableFormEqualsBitForm : Prop :=
  (∀ acc x : Byte, crc8Byte acc x = crcTable (acc ^^^ x)) ∧
  (∀ b0 b1 : Byte, crc8Word b0 b1 = crc8WordByTable b0 b1) ∧
  Function.Bijective crcTable ∧
  (∀ x y : Byte, crcTable (x ^^^ y) = crcTable x ^^^ crcTable y)

/-- R86 (a), which the spec marks as derived: with either byte held fixed the checksum is a bijection in the other, and every
checksum value has exactly 256 words. -/
def Obligations.ChecksumIsABijectionInEachByte : Prop :=
  (∀ b0 : Byte, Function.Bijective fun b1 => crc8Word b0 b1) ∧
  (∀ b1 : Byte, Function.Bijective fun b0 => crc8Word b0 b1) ∧
  (∀ c : Byte, Nat.card { p : Byte × Byte // crc8Word p.1 p.2 = c } = 256)

/-- R86 (b), which the spec marks as derived: the checksum is affine over exclusive or, and the patterns it does not see are
`e1 = T[e0]`. -/
def Obligations.ChecksumIsAffine : Prop :=
  (∀ b0 b1 e0 e1 : Byte, crc8Word (b0 ^^^ e0) (b1 ^^^ e1) = crc8Word b0 b1 ^^^ crcError e0 e1) ∧
  (∀ e0 e1 : Byte, crcError e0 e1 = 0 ↔ e1 = crcTable e0)

/-- R85: CRCW answers the checksum of its two operand bytes and changes no state element; it is refused while `FAULT = 1`, and
`rsv != 0` raises `Fault(1)`. The corner cases and the worked example of the rule are the last clause. -/
def Obligations.CrcwAnswersTheChecksum : Prop :=
  (∀ s b0 b1, s.fault = false → exec (.crcw b0 b1) s = .next (answering s .ok (crc8Word b0 b1))) ∧
  (∀ b0 b1, RefusedWhenFaulted (.crcw b0 b1)) ∧
  (∀ b0 b1 : Byte, Spells (0x100000 ||| (b0.setWidth 24 <<< 8) ||| b1.setWidth 24) (.crcw b0 b1)) ∧
  MalformedFaults 0x1 (fun w => w.extractLsb' 16 4 = 0) ∧
  (crc8Word 0x00 0x00 = 0x81 ∧ crc8Word 0xFF 0xFF = 0xAC ∧ crc8Word 0xFF 0x00 = 0x00 ∧
    crc8Word 0x00 0x01 = 0xB0 ∧ crc8Word 0x01 0x00 = 0x75 ∧ crc8Word 0xBE 0xEF = 0x92)

/-! ### The Frame Codec, outbound (41_frame_encode.md) -/

/-- R93: ENCF passes lengths 0, 1 and 2 through, raises `Fault(2)` on every other length that is not `2 + 3k`, and otherwise
writes the checksum of each data word into its slot and nothing else: the new buffer is `enc` of the old one, and every byte
that is no slot reads as before. -/
def Obligations.EncfFillsTheSlots : Prop :=
  (∀ s, s.fault = false → s.len.toNat ≤ 2 → exec .encf s = .next (answering s .ok 0x00)) ∧
  (∀ s, s.fault = false → 2 < s.len.toNat → (s.len.toNat - 2) % 3 ≠ 0 → exec .encf s = .next (faulting s 2)) ∧
  (∀ s, s.fault = false → 2 < s.len.toNat → (s.len.toNat - 2) % 3 = 0 →
    ∃ t, exec .encf s = .next t ∧
      t = { s with buf := t.buf, responses := s.responses ++ [⟨.ok, 0x00⟩] } ∧
      (∀ j, 4 + 3 * j < s.len.toNat → t.byte? (4 + 3 * j) = checksumAt s (2 + 3 * j)) ∧
      (∀ a, (¬ ∃ j, a = 4 + 3 * j ∧ a < s.len.toNat) → t.byte? a = s.byte? a) ∧
      t.bytes = enc s.bytes) ∧
  RefusedWhenFaulted .encf ∧ Spells 0x200000 .encf ∧ MalformedFaults 0x2 (· = 0x200000)

/-- R94: ENCI passes lengths 0, 1 and 2 through, raises `Fault(2)` on every other length that is not `2 + 3k`, and otherwise
moves packed data word `j` to `2 + 3j` with its checksum behind it; the command word and the length stay, and the new buffer is
`encI` of the old one. -/
def Obligations.EnciInsertsTheChecksums : Prop :=
  (∀ s, s.fault = false → s.len.toNat ≤ 2 → exec .enci s = .next (answering s .ok 0x00)) ∧
  (∀ s, s.fault = false → 2 < s.len.toNat → (s.len.toNat - 2) % 3 ≠ 0 → exec .enci s = .next (faulting s 2)) ∧
  (∀ s, s.fault = false → 2 < s.len.toNat → (s.len.toNat - 2) % 3 = 0 →
    ∃ t, exec .enci s = .next t ∧
      t = { s with buf := t.buf, responses := s.responses ++ [⟨.ok, 0x00⟩] } ∧
      (∀ j, 4 + 3 * j < s.len.toNat →
        t.byte? (2 + 3 * j) = s.byte? (2 + 2 * j) ∧
        t.byte? (3 + 3 * j) = s.byte? (3 + 2 * j) ∧
        t.byte? (4 + 3 * j) = checksumAt s (2 + 2 * j)) ∧
      (∀ a, (a < 2 ∨ s.len.toNat ≤ a) → t.byte? a = s.byte? a) ∧
      t.bytes = encI s.bytes) ∧
  RefusedWhenFaulted .enci ∧ Spells 0x300000 .enci ∧ MalformedFaults 0x3 (· = 0x300000)

/-- R95, which the spec marks as derived: on every command word and packed data the two readings give the same frame, whatever
the placeholder and spare bytes, and the fill reading is idempotent. -/
def Obligations.BothReadingsGiveTheSameFrame : Prop :=
  (∀ (c0 c1 : Byte) (d p q : List Byte), d.length = 2 * p.length → q.length = p.length →
    enc (c0 :: c1 :: slotted d p) = frame [c0, c1] d ∧
    encI (c0 :: c1 :: d ++ q) = frame [c0, c1] d ∧
    enc (frame [c0, c1] d) = frame [c0, c1] d) ∧
  (∀ s : List Byte, enc (enc s) = enc s)

/-- R96's last paragraph, which the spec marks as derived: the document's literal procedure, insertions at 4, 7, ..., `1 + 3k` each
shifting the tail of a buffer of fixed length, gives `encI` on every length encode admits. -/
def Obligations.LiteralInsertionEqualsEncI : Prop :=
  ∀ s : List Byte, (s.length ≤ 2 ∨ (s.length - 2) % 3 = 0) → encInPlace s = encI s

/-- R90: on every admitted length `enc` keeps the length, puts the checksum of the two preceding bytes at each offset `4 + 3j` and
keeps every other byte; R91's pass-through is its case `|s| <= 2`. -/
def Obligations.EncWritesExactlyTheSlots : Prop :=
  ∀ s : List Byte, (s.length ≤ 2 ∨ (s.length - 2) % 3 = 0) →
    (enc s).length = s.length ∧
    (s.length ≤ 2 → enc s = s) ∧
    (∀ j, 4 + 3 * j < s.length →
      (enc s)[4 + 3 * j]? = some (crc8Word (s.getD (2 + 3 * j) 0) (s.getD (3 + 3 * j) 0))) ∧
    (∀ i, (¬ ∃ j, i = 4 + 3 * j) → (enc s)[i]? = s[i]?)

/-- R93's and R94's input layouts ("any byte at each slot", "any k spare bytes"): two buffers of one admitted length that agree on
the bytes the operation reads encode to the same bytes. -/
def Obligations.PlaceholderBytesDoNotMatter : Prop :=
  ∀ s s' t t' : State, s.fault = false → s'.fault = false → s.len = s'.len →
    2 < s.len.toNat → (s.len.toNat - 2) % 3 = 0 →
    ((∀ a, (¬ ∃ j, a = 4 + 3 * j) → s.byte? a = s'.byte? a) →
      exec .encf s = .next t → exec .encf s' = .next t' → t.bytes = t'.bytes) ∧
    ((∀ a, a < 2 + 2 * ((s.len.toNat - 2) / 3) → s.byte? a = s'.byte? a) →
      exec .enci s = .next t → exec .enci s' = .next t' → t.bytes = t'.bytes)

/-! ### The Frame Codec, inbound (42_frame_decode.md) -/

/-- R109 with R110: DEC raises `Fault(3)` on a length that is not `3k`; on a mismatch anywhere it sets `CKERR`, answers CKERR and
changes nothing else; otherwise it leaves the `2k` data bytes in order, clears `CKERR` and changes nothing else. -/
def Obligations.DecValidatesThenStrips : Prop :=
  (∀ s, s.fault = false → s.len.toNat % 3 ≠ 0 → exec .dec s = .next (faulting s 3)) ∧
  (∀ s, s.fault = false → s.len.toNat % 3 = 0 → (∃ j, j < s.len.toNat / 3 ∧ Mismatch s j) →
    exec .dec s = .next { s with ckerr := true, responses := s.responses ++ [⟨.ckerr, 0x00⟩] }) ∧
  (∀ s, s.fault = false → s.len.toNat % 3 = 0 → (∀ j, j < s.len.toNat / 3 → ¬ Mismatch s j) →
    ∃ t, exec .dec s = .next t ∧
      t = { s with buf := t.buf, len := t.len, ckerr := false, responses := s.responses ++ [⟨.ok, 0x00⟩] } ∧
      t.len.toNat = 2 * (s.len.toNat / 3) ∧
      (∀ j, j < s.len.toNat / 3 →
        t.byte? (2 * j) = s.byte? (3 * j) ∧ t.byte? (2 * j + 1) = s.byte? (3 * j + 1)) ∧
      dec s.bytes = .ok t.bytes) ∧
  RefusedWhenFaulted .dec ∧ Spells 0x400000 .dec ∧ MalformedFaults 0x4 (· = 0x400000)

/-- R105 and R106: on every multiple of 3, `dec(s) = Ok(t)` exactly when every checksum byte equals the checksum of its two
preceding data bytes and `t` is the `2k` data bytes in order; otherwise the result is the one checksum error. -/
def Obligations.DecodeIsAllOrNothing : Prop :=
  ∀ (s : List Byte) (k : Nat), s.length = 3 * k →
    (∀ t, dec s = .ok t ↔
      (∀ j, j < k → crc8Word (s.getD (3 * j) 0) (s.getD (3 * j + 1) 0) = s.getD (3 * j + 2) 0) ∧
      t.length = 2 * k ∧ ∀ j, j < k → t[2 * j]? = s[3 * j]? ∧ t[2 * j + 1]? = s[3 * j + 1]?) ∧
    (dec s = .checksumError ↔
      ∃ j, j < k ∧ crc8Word (s.getD (3 * j) 0) (s.getD (3 * j + 1) 0) ≠ s.getD (3 * j + 2) 0)

/-- R108: after `j` in-place removals word `j`'s bytes stand at `2j`, `2j + 1` and `2j + 2`, unchanged, and `k` removals leave the
data bytes, so compaction need not disturb validation. -/
def Obligations.InPlaceCompactionKeepsLaterWords : Prop :=
  ∀ (s : List Byte) (k : Nat), s.length = 3 * k →
    (∀ j, j < k → ∀ i, i < 3 → (compacted s j)[2 * j + i]? = s[3 * j + i]?) ∧
    compacted s k = dataBytes s

/-- R111, which the spec marks as derived: the body of every frame decodes to the data it was built from, and the body of every
encoded buffer decodes to that buffer's data bytes. -/
def Obligations.EncodeThenDecodeReturnsTheData : Prop :=
  (∀ (c0 c1 : Byte) (d : List Byte) (k : Nat), d.length = 2 * k →
    dec ((frame [c0, c1] d).drop 2) = .ok d) ∧
  (∀ (s : List Byte) (k : Nat), s.length = 2 + 3 * k → dec ((enc s).drop 2) = .ok (dataBytes (s.drop 2)))

/-- R112 with R86 (c), which the spec marks as derived: an error pattern on one framed word of a valid frame of any length goes
undetected exactly when `ec = L(e0, e1)`; so every change confined to one of the three bytes, and every flip of 1, 2 or 3 bits
within the word, makes decode fail. -/
def Obligations.TamperedFramesAreRejected : Prop :=
  ∀ (s t : List Byte) (k j : Nat) (e0 e1 ec : Byte), s.length = 3 * k → j < k → dec s = .ok t →
    (dec (corrupted s j e0 e1 ec) = .checksumError ↔ ec ≠ crcError e0 e1) ∧
    (e0 = 0 → e1 = 0 → ec ≠ 0 → dec (corrupted s j e0 e1 ec) = .checksumError) ∧
    (e0 ≠ 0 → e1 = 0 → ec = 0 → dec (corrupted s j e0 e1 ec) = .checksumError) ∧
    (e0 = 0 → e1 ≠ 0 → ec = 0 → dec (corrupted s j e0 e1 ec) = .checksumError) ∧
    (1 ≤ ones e0 + ones e1 + ones ec → ones e0 + ones e1 + ones ec ≤ 3 →
      dec (corrupted s j e0 e1 ec) = .checksumError)

/-! ### The buffer and status operations (43_buffer_ops.md) -/

/-- R120: CLRB empties the buffer and changes nothing else; `CKERR` stays. -/
def Obligations.ClrbEmptiesTheBuffer : Prop :=
  (∀ s, s.fault = false → ∃ t, exec .clrb s = .next t ∧
    t = { s with buf := t.buf, len := 0, responses := s.responses ++ [⟨.ok, 0x00⟩] } ∧
    t.bytes = [] ∧ t.buf = []) ∧
  RefusedWhenFaulted .clrb ∧ Spells 0x500000 .clrb ∧ MalformedFaults 0x5 (· = 0x500000)

/-- R121, in every state that meets the invariant `StepKeepsTheInvariant` states: PUSH appends one byte and changes no earlier
byte; on a full buffer it raises `Fault(5)` and changes nothing else. -/
def Obligations.PushAppendsOneByte : Prop :=
  (∀ s val, s.Inv → s.fault = false → s.len.toNat ≠ 64 → ∃ t, exec (.push val) s = .next t ∧
    t = { s with buf := t.buf, len := t.len, responses := s.responses ++ [⟨.ok, 0x00⟩] } ∧
    t.len.toNat = s.len.toNat + 1 ∧ t.byte? s.len.toNat = some val ∧
    (∀ a, a ≠ s.len.toNat → t.byte? a = s.byte? a) ∧ t.bytes = s.bytes ++ [val]) ∧
  (∀ s val, s.fault = false → s.len.toNat = 64 → exec (.push val) s = .next (faulting s 5)) ∧
  (∀ val, RefusedWhenFaulted (.push val)) ∧
  (∀ val : Byte, Spells (0x600000 ||| val.setWidth 24) (.push val)) ∧
  MalformedFaults 0x6 (fun w => w.extractLsb' 16 4 = 0 ∧ w.extractLsb' 8 8 = 0)

/-- R122, in every state that meets the invariant `StepKeepsTheInvariant` states: WRB overwrites the byte at its index and no
other, and never extends the buffer; an index `>= LEN` raises `Fault(4)` and changes nothing else. -/
def Obligations.WrbOverwritesOneByte : Prop :=
  (∀ s idx val, s.Inv → s.fault = false → idx.toNat < s.len.toNat → ∃ t, exec (.wrb idx val) s = .next t ∧
    t = { s with buf := t.buf, responses := s.responses ++ [⟨.ok, 0x00⟩] } ∧
    t.byte? idx.toNat = some val ∧ (∀ a, a ≠ idx.toNat → t.byte? a = s.byte? a)) ∧
  (∀ s idx val, s.fault = false → s.len.toNat ≤ idx.toNat → exec (.wrb idx val) s = .next (faulting s 4)) ∧
  (∀ idx val, RefusedWhenFaulted (.wrb idx val)) ∧
  (∀ idx val : Byte, Spells (0x700000 ||| (idx.setWidth 24 <<< 8) ||| val.setWidth 24) (.wrb idx val)) ∧
  MalformedFaults 0x7 (fun w => w.extractLsb' 16 4 = 0)

/-- R123: RDB answers the byte at its index and changes no state element; an index `>= LEN` raises `Fault(4)` and changes nothing
else. -/
def Obligations.RdbAnswersTheByte : Prop :=
  (∀ s idx, s.fault = false → idx.toNat < s.len.toNat →
    ∃ v, s.byte? idx.toNat = some v ∧ exec (.rdb idx) s = .next (answering s .ok v)) ∧
  (∀ s idx, s.fault = false → s.len.toNat ≤ idx.toNat → exec (.rdb idx) s = .next (faulting s 4)) ∧
  (∀ idx, RefusedWhenFaulted (.rdb idx)) ∧
  (∀ idx : Byte, Spells (0x800000 ||| (idx.setWidth 24 <<< 8)) (.rdb idx)) ∧
  MalformedFaults 0x8 (fun w => w.extractLsb' 16 4 = 0 ∧ w.extractLsb' 0 8 = 0)

/-- R124: GETL answers `LEN` and changes no state element. -/
def Obligations.GetlAnswersTheLength : Prop :=
  (∀ s, s.fault = false → exec .getl s = .next (answering s .ok s.len) ∧ s.bytes.length = s.len.toNat) ∧
  RefusedWhenFaulted .getl ∧ Spells 0x900000 .getl ∧ MalformedFaults 0x9 (· = 0x900000)

/-- R125: GETS answers `STATUS`, the value `CKERR + 2 FAULT + 4 FCAUSE`, in every state, the faulted one too, and changes no state
element. -/
def Obligations.GetsAnswersTheStatus : Prop :=
  (∀ s, ∃ v : Byte, exec .gets s = .next (answering s .ok v) ∧
    v.toNat = s.ckerr.toNat + 2 * s.fault.toNat + 4 * s.fcause.toNat) ∧
  Spells 0xA00000 .gets ∧ MalformedFaults 0xA (· = 0xA00000)

/-- R122 and R123 together, in every state that meets the invariant: a byte written by WRB is the byte RDB answers, and RDB of any
other index answers what it answered before. -/
def Obligations.ReadAfterWrite : Prop :=
  ∀ s t idx idx' val, s.Inv → s.fault = false → idx.toNat < s.len.toNat → idx'.toNat < s.len.toNat →
    exec (.wrb idx val) s = .next t →
    ∃ v, exec (.rdb idx') s = .next (answering s .ok v) ∧
      exec (.rdb idx') t = .next (answering t .ok (if idx' = idx then val else v))

/-- R35, which the spec marks as derived: the reads and CRCW change no state element, and repeating one answers the same; ENCF,
CLRB and WRB are idempotent on the state elements. -/
def Obligations.ReadsAreSilentAndWritesIdempotent : Prop :=
  (∀ i s t, ((∃ b0 b1, i = .crcw b0 b1) ∨ (∃ idx, i = .rdb idx ∧ idx.toNat < s.len.toNat) ∨ i = .getl ∨ i = .gets) →
    exec i s = .next t → s.SameElements t ∧
    ∃ r u, t.responses = s.responses ++ [r] ∧ exec i t = .next u ∧ u.responses = t.responses ++ [r]) ∧
  (∀ i s t u, (i = .encf ∨ i = .clrb ∨ (s.Inv ∧ ∃ idx val, i = .wrb idx val)) →
    exec i s = .next t → exec i t = .next u → t.SameElements u)

/-! ### Encodings (30_encoding.md) -/

/-- The words of R56's table written out, decoded: one of each format, and the reserved all-zero word. -/
def Obligations.SampleWordsDecode : Prop :=
  decode 0b000100001011111011101111 = .ok (.crcw 0xBE 0xEF) ∧
  decode 0b001000000000000000000000 = .ok .encf ∧
  decode 0b010000000000000000000000 = .ok .dec ∧
  decode 0b011000000000000010101010 = .ok (.push 0xAA) ∧
  decode 0b011100000000010111000010 = .ok (.wrb 0x05 0xC2) ∧
  decode 0b100000000010011100000000 = .ok (.rdb 0x27) ∧
  decode 0b101000000000000000000000 = .ok .gets ∧
  decode 0b000000000000000000000000 = .error .reservedOp

/-- Decode of encode is the instruction, for every operation and every operand value, and every legal word has exactly one
spelling (R50 to R52, D6). -/
def Obligations.DecodeAndEncodeAgree : Prop :=
  (∀ i : Instr, decode (encode i) = .ok i) ∧
  (∀ (w : ReqWord) (i : Instr), decode w = .ok i → encode i = w)

/-- R53: a word decodes exactly when it is not illegal; an illegal word raises `Fault(1)` when `FAULT = 0` and is refused when
`FAULT = 1`; 131590 words are legal. -/
def Obligations.IllegalRequestsFault : Prop :=
  (∀ w : ReqWord, (∃ i, decode w = .ok i) ↔ ¬ IllegalWord w) ∧
  (∀ s w, IllegalWord w → s.fault = false → step (issuing s w) = .next (faulting s 1)) ∧
  (∀ s w, IllegalWord w → s.fault = true → step (issuing s w) = .next (answering s .fault 0x00)) ∧
  Nat.card { w : ReqWord // ¬ IllegalWord w } = 131590

/-- R54: every request gives exactly one response; the response word holds `res` in bits 9:8 (0, 1 or 2, never 3) and `rdata` in
bits 7:0; `rdata` is the checksum, the byte, `LEN` or `STATUS` when CRCW, RDB, GETL or GETS completes, and 0x00 otherwise; only
DEC gives CKERR, and FAULT is the answer of a request that raised a fault or was refused. -/
def Obligations.EveryRequestGetsOneResponse : Prop :=
  ∀ s w, ∃ t r, step (issuing s w) = .next t ∧ t.pending = s.pending ∧ t.responses = s.responses ++ [r] ∧
    r.word.extractLsb' 8 2 = (match r.res with | .ok => 0 | .ckerr => 1 | .fault => 2) ∧
    r.word.extractLsb' 0 8 = r.rdata ∧
    (r.res = .fault ↔ (s.fault = true ∧ w ≠ 0xA00000) ∨ (s.fault = false ∧ t.fault = true)) ∧
    (r.res = .ckerr → w = 0x400000 ∧ t.ckerr = true) ∧
    (r.res ≠ .ok → r.rdata = 0x00) ∧
    (r.res = .ok →
      if w.extractLsb' 20 4 = 0x1 then r.rdata = crc8Word (w.extractLsb' 8 8) (w.extractLsb' 0 8)
      else if w.extractLsb' 20 4 = 0x8 then s.byte? (w.extractLsb' 8 8).toNat = some r.rdata
      else if w.extractLsb' 20 4 = 0x9 then r.rdata = s.len
      else if w.extractLsb' 20 4 = 0xA then r.rdata = s.status
      else r.rdata = 0x00)

/-! ### Outcomes and faults (60_exceptions.md) -/

/-- R164: the checks of one request are made in the rule's order and the first that applies decides the result code, `FAULT` and
`FCAUSE`, and a refusal, a fault or a mismatch leaves the buffer; so a DEC with a bad length and bad checksums faults with cause 3
and leaves `CKERR`. -/
def Obligations.ChecksDecideInOrder : Prop :=
  ∀ s w, ∃ t rdata, step (issuing s w) = .next t ∧
    t.responses = s.responses ++ [⟨(outcome s w).1, rdata⟩] ∧
    t.fcause = (outcome s w).2 ∧
    t.fault = (s.fault || decide ((outcome s w).1 = .fault)) ∧
    ((outcome s w).1 = .ckerr → rdata = 0x00 ∧ t.ckerr = true ∧ t.buf = s.buf ∧ t.len = s.len) ∧
    ((outcome s w).1 = .fault → rdata = 0x00 ∧ t.ckerr = s.ckerr ∧ t.buf = s.buf ∧ t.len = s.len)

/-- R165: whatever request raises a fault, what it leaves is the old state with `FAULT = 1`, a cause from 1 to 5 and the response
FAULT/0x00: `BUF`, `LEN` and `CKERR` keep the values they had. -/
def Obligations.FaultEntryChangesNothingElse : Prop :=
  ∀ s w t, s.fault = false → step (issuing s w) = .next t → t.fault = true →
    ∃ c : BitVec 3, 1 ≤ c.toNat ∧ c.toNat ≤ 5 ∧ t = faulting s c

/-- R166: over any sequence of requests issued while `FAULT = 1` no state element changes; each well-formed GETS answers `STATUS`
and every other request, legal or not, answers FAULT/0x00. So `BUF` and `LEN` can no longer be read: the answers depend on
`STATUS` alone. -/
def Obligations.FaultedStateIsFrozen : Prop :=
  ∀ (ws : List ReqWord) (s : State), s.fault = true →
    run ws.length { s with pending := ws.map .request ++ s.pending } =
      .next { s with
        responses := s.responses ++ ws.map fun w => if w = 0xA00000 then ⟨.ok, s.status⟩ else ⟨.fault, 0x00⟩ }

/-- R167: `FAULT`, once 1, is 0 after a step only if that step was the reset input, which also empties the buffer; in every other
step `FAULT` and `FCAUSE` stay as the fault left them. -/
def Obligations.OnlyResetClearsTheFault : Prop :=
  ∀ s t, s.fault = true → step s = .next t →
    (t.fault = true ∧ t.fcause = s.fcause) ∨
    ((∃ rest, s.pending = .rst :: rest) ∧ t.fault = false ∧ t.fcause = 0 ∧ t.bytes = [])

/-- R160 and R190: the block never halts by itself: every state has a next state, never a stop. That a state with no host move
waiting has one (itself) is the model's choice, log entry 6: the spec has no such step. -/
def Obligations.TheBlockNeverHalts : Prop :=
  ∀ (n : Nat) (s : State), ∃ t, run n s = .next t

/-- R190 with R166: a response FAULT is in the record of a run for good, whatever the run goes on to do, and a request that raises
a fault puts one there. -/
def Obligations.AFaultedRunStaysWrong : Prop :=
  (∀ n s t, s.GoneWrong → run n s = .next t → t.GoneWrong) ∧
  (∀ s t, s.fault = false → step s = .next t → t.fault = true → t.GoneWrong)

/-! ### State, flags and reset (10_state.md, 70_reset_and_hazards.md) -/

/-- R13: only DEC writes `CKERR`: 1 on a mismatch, 0 on success, nothing on a fault. -/
def Obligations.OnlyDecWritesCkerr : Prop :=
  ∀ s w t r, step (issuing s w) = .next t → t.responses = s.responses ++ [r] →
    (w ≠ 0x400000 → t.ckerr = s.ckerr) ∧
    (w = 0x400000 → t.ckerr = match r.res with | .ok => false | .ckerr => true | .fault => s.ckerr)

/-- R12, in every state that meets the invariant: PUSH adds 1 to `LEN`, CLRB sets 0, a successful DEC of `3k` sets `2k`, and no
other request, and none that does not complete, changes it; `LEN` is the number of bytes in `BUF` and stays at most
`BUF_SIZE`. -/
def Obligations.LengthWriters : Prop :=
  ∀ s w t, s.Inv → step (issuing s w) = .next t →
    t.len.toNat ≤ 64 ∧ t.bytes.length = t.len.toNat ∧
    t.len.toNat =
      if (outcome s w).1 ≠ .ok then s.len.toNat
      else if w.extractLsb' 20 4 = 0x6 then s.len.toNat + 1
      else if w.extractLsb' 20 4 = 0x5 then 0
      else if w.extractLsb' 20 4 = 0x4 then 2 * (s.len.toNat / 3)
      else s.len.toNat

/-- R15: the fields of `STATUS` bit by bit, and the twelve values that occur in states that meet the invariant. -/
def Obligations.StatusViewFields : Prop :=
  (∀ s : State, s.status.getLsbD 0 = s.ckerr ∧ s.status.getLsbD 1 = s.fault ∧
    s.status.extractLsb' 2 3 = s.fcause ∧ s.status.extractLsb' 5 3 = 0) ∧
  (∀ s : State, s.Inv →
    s.status ∈ [0x00, 0x01, 0x06, 0x07, 0x0A, 0x0B, 0x0E, 0x0F, 0x12, 0x13, 0x16, 0x17])

/-- R20, R180 and R181: the reset state is all clear; the reset input brings it about in every state, the faulted one too, as one
step with no response; and the first request after reset sees it. The host's later moves and the record of responses are the
model's own fields and stay (log entry 8). -/
def Obligations.ResetInputClearsEverything : Prop :=
  (State.reset.bytes = [] ∧ State.reset.len = 0 ∧ State.reset.ckerr = false ∧ State.reset.fault = false ∧
    State.reset.fcause = 0 ∧ State.reset.status = 0x00) ∧
  (∀ s rest, s.pending = .rst :: rest →
    step s = .next { State.reset with pending := rest, responses := s.responses }) ∧
  (∀ es rs, let s := { State.reset with pending := es, responses := rs }
    exec .gets s = .next (answering s .ok 0x00) ∧ exec .getl s = .next (answering s .ok 0x00) ∧
    exec (.rdb 0) s = .next (faulting s 4))

/-- The invariant holds at reset, whatever the host's coming moves: the bounds of R21 on `LEN` and `FCAUSE`, by R20. Its clauses on
the buffer's cells (the canonical form, none at or above `LEN`) are the model's choice, log entry 2. -/
def Obligations.InvariantHoldsAtReset : Prop :=
  ∀ es : List HostEvent, State.Inv { State.reset with pending := es }

/-- The invariant is kept by every step from every state that meets it, reachable or not. R21 gives `LEN <= BUF_SIZE`, and `FCAUSE`
0 when `FAULT = 0` and from 1 to 5 when `FAULT = 1`. That the buffer keeps its canonical form and lists no index at or above `LEN`
is no rule of the spec: it is the model's choice of how `BUF` is held, log entry 2. -/
def Obligations.StepKeepsTheInvariant : Prop :=
  ∀ s t : State, s.Inv → step s = .next t → t.Inv

/-! ### The step and the ports -/

/-- A step serves the host's next move: a request word that decodes to `i` is exactly `exec i` with the move taken from the port;
with no move nothing changes (the model's choice, log entry 6). -/
def Obligations.StepRunsTheDecodedRequest : Prop :=
  (∀ s w rest i, s.pending = .request w :: rest → decode w = .ok i →
    step s = exec i { s with pending := rest }) ∧
  (∀ s i, step (s.withFetchWord 24 (encode i).toNat) = exec i s) ∧
  (∀ s, s.pending = [] → step s = .next s)

/-- R57's LOADB, run on the machine: for every byte sequence the buffer can hold, and from every state that is not faulted, its
expansion makes `BUF` that sequence, answers OK to every request, and changes no flag. -/
def Obligations.LoadbMakesTheBuffer : Prop :=
  ∀ (bs : List Byte) (s : State), bs.length ≤ 64 → s.fault = false →
    ∃ t, run (bs.length + 1) (queued (Pseudo.loadb bs).expand s) = .next t ∧
      t.bytes = bs ∧ t.len.toNat = bs.length ∧
      t = { s with
        buf := t.buf, len := t.len
        responses := s.responses ++ List.replicate (bs.length + 1) ⟨.ok, 0x00⟩ }

/-- R57's FRAMEF and FRAMEI, run on the machine: with the same operands they leave the same state, whose buffer is the frame of
the command word and the data. -/
def Obligations.FramefAndFrameiAgree : Prop :=
  ∀ (c0 c1 : Byte) (d : List Byte) (k : Nat) (s : State), d.length = 2 * k → 2 + 3 * k ≤ 64 → s.fault = false →
    ∃ t, run (4 + 3 * k) (queued (Pseudo.framef c0 c1 d).expand s) = .next t ∧
      run (4 + 3 * k) (queued (Pseudo.framei c0 c1 d).expand s) = .next t ∧
      t.bytes = frame [c0, c1] d ∧
      t = { s with
        buf := t.buf, len := t.len
        responses := s.responses ++ List.replicate (4 + 3 * k) ⟨.ok, 0x00⟩ }

/-- R57's UNFRAME with R111, run on the machine: the body of every frame the buffer can hold, received, is validated and
stripped to the data it was built from, and `CKERR` is clear. -/
def Obligations.UnframeReturnsTheData : Prop :=
  ∀ (c0 c1 : Byte) (d : List Byte) (k : Nat) (s : State), d.length = 2 * k → 3 * k ≤ 64 → s.fault = false →
    ∃ t, run (2 + 3 * k) (queued (Pseudo.unframe ((frame [c0, c1] d).drop 2)).expand s) = .next t ∧
      t.bytes = d ∧
      t = { s with
        buf := t.buf, len := t.len, ckerr := false
        responses := s.responses ++ List.replicate (2 + 3 * k) ⟨.ok, 0x00⟩ }

/-- R57: a pseudo-instruction's run is the run of the first of its operations on the port, up to and including the first one
whose response is not OK, or of all of them; so a LOADB of more than `BUF_SIZE` bytes stops at the PUSH that overflows, with the
first 64 bytes in the buffer. -/
def Obligations.PseudoStopsAtTheFirstFailure : Prop :=
  (∀ (p : Pseudo) (s : State), ∃ t rs, p.run s = .next t ∧ t.responses = s.responses ++ rs ∧
    run rs.length (queued (p.expand.take rs.length) s) = .next t ∧ rs.length ≤ p.expand.length ∧
    (∀ r ∈ rs.dropLast, r.res = .ok) ∧
    (rs.length = p.expand.length ∨ ∃ r, rs.getLast? = some r ∧ r.res ≠ .ok)) ∧
  (∀ (bs : List Byte) (s : State), 64 < bs.length → s.fault = false →
    ∃ t, (Pseudo.loadb bs).run s = .next t ∧ t.bytes = bs.take 64 ∧
      t = { s with
        buf := t.buf, len := 64, fault := true, fcause := 5
        responses := s.responses ++ List.replicate 65 ⟨.ok, 0x00⟩ ++ [⟨.fault, 0x00⟩] })
end

