-- ==== Sys2Proof/Laws/State.lean ====
section
/-! SUPPORT. What each update of a state does to each field, so that no proof unfolds a record update. -/

namespace Sys2Proof.Machine

variable (s : State)

/-! ### `State.answer` -/

@[simp] theorem State.answer_buf (res : Res) (rdata : Byte) : (s.answer res rdata).buf = s.buf := rfl
@[simp] theorem State.answer_len (res : Res) (rdata : Byte) : (s.answer res rdata).len = s.len := rfl
@[simp] theorem State.answer_ckerr (res : Res) (rdata : Byte) : (s.answer res rdata).ckerr = s.ckerr := rfl
@[simp] theorem State.answer_fault (res : Res) (rdata : Byte) : (s.answer res rdata).fault = s.fault := rfl
@[simp] theorem State.answer_fcause (res : Res) (rdata : Byte) : (s.answer res rdata).fcause = s.fcause := rfl
@[simp] theorem State.answer_pending (res : Res) (rdata : Byte) : (s.answer res rdata).pending = s.pending := rfl
@[simp] theorem State.answer_responses (res : Res) (rdata : Byte) : (s.answer res rdata).responses = s.responses ++ [⟨res, rdata⟩] := rfl

/-! ### `State.faulted` -/

@[simp] theorem State.faulted_buf (c : Cause) : (s.faulted c).buf = s.buf := rfl
@[simp] theorem State.faulted_len (c : Cause) : (s.faulted c).len = s.len := rfl
@[simp] theorem State.faulted_ckerr (c : Cause) : (s.faulted c).ckerr = s.ckerr := rfl
@[simp] theorem State.faulted_fault (c : Cause) : (s.faulted c).fault = true := rfl
@[simp] theorem State.faulted_fcause (c : Cause) : (s.faulted c).fcause = c.code := rfl
@[simp] theorem State.faulted_pending (c : Cause) : (s.faulted c).pending = s.pending := rfl
@[simp] theorem State.faulted_responses (c : Cause) : (s.faulted c).responses = s.responses := rfl

/-! ### `State.afterReset` -/

@[simp] theorem State.afterReset_buf : (s.afterReset).buf = [] := rfl
@[simp] theorem State.afterReset_len : (s.afterReset).len = 0 := rfl
@[simp] theorem State.afterReset_ckerr : (s.afterReset).ckerr = false := rfl
@[simp] theorem State.afterReset_fault : (s.afterReset).fault = false := rfl
@[simp] theorem State.afterReset_fcause : (s.afterReset).fcause = 0 := rfl
@[simp] theorem State.afterReset_pending : (s.afterReset).pending = s.pending := rfl
@[simp] theorem State.afterReset_responses : (s.afterReset).responses = s.responses := rfl

/-! ### `State.overwrite` -/

@[simp] theorem State.overwrite_buf (bs : List Byte) : (s.overwrite bs).buf = Memory.ofBytes bs := rfl
@[simp] theorem State.overwrite_len (bs : List Byte) : (s.overwrite bs).len = s.len := rfl
@[simp] theorem State.overwrite_ckerr (bs : List Byte) : (s.overwrite bs).ckerr = s.ckerr := rfl
@[simp] theorem State.overwrite_fault (bs : List Byte) : (s.overwrite bs).fault = s.fault := rfl
@[simp] theorem State.overwrite_fcause (bs : List Byte) : (s.overwrite bs).fcause = s.fcause := rfl
@[simp] theorem State.overwrite_pending (bs : List Byte) : (s.overwrite bs).pending = s.pending := rfl
@[simp] theorem State.overwrite_responses (bs : List Byte) : (s.overwrite bs).responses = s.responses := rfl

/-! ### `State.load` -/

@[simp] theorem State.load_buf (bs : List Byte) : (s.load bs).buf = Memory.ofBytes bs := rfl
@[simp] theorem State.load_len (bs : List Byte) : (s.load bs).len = BitVec.ofNat 8 bs.length := rfl
@[simp] theorem State.load_ckerr (bs : List Byte) : (s.load bs).ckerr = s.ckerr := rfl
@[simp] theorem State.load_fault (bs : List Byte) : (s.load bs).fault = s.fault := rfl
@[simp] theorem State.load_fcause (bs : List Byte) : (s.load bs).fcause = s.fcause := rfl
@[simp] theorem State.load_pending (bs : List Byte) : (s.load bs).pending = s.pending := rfl
@[simp] theorem State.load_responses (bs : List Byte) : (s.load bs).responses = s.responses := rfl

/-! ### `State.append` -/

@[simp] theorem State.append_buf (v : Byte) : (s.append v).buf = s.buf.write s.len.toNat v := rfl
@[simp] theorem State.append_len (v : Byte) : (s.append v).len = s.len + 1 := rfl
@[simp] theorem State.append_ckerr (v : Byte) : (s.append v).ckerr = s.ckerr := rfl
@[simp] theorem State.append_fault (v : Byte) : (s.append v).fault = s.fault := rfl
@[simp] theorem State.append_fcause (v : Byte) : (s.append v).fcause = s.fcause := rfl
@[simp] theorem State.append_pending (v : Byte) : (s.append v).pending = s.pending := rfl
@[simp] theorem State.append_responses (v : Byte) : (s.append v).responses = s.responses := rfl

/-! ### `State.store` -/

@[simp] theorem State.store_buf (i : Nat) (v : Byte) : (s.store i v).buf = s.buf.write i v := rfl
@[simp] theorem State.store_len (i : Nat) (v : Byte) : (s.store i v).len = s.len := rfl
@[simp] theorem State.store_ckerr (i : Nat) (v : Byte) : (s.store i v).ckerr = s.ckerr := rfl
@[simp] theorem State.store_fault (i : Nat) (v : Byte) : (s.store i v).fault = s.fault := rfl
@[simp] theorem State.store_fcause (i : Nat) (v : Byte) : (s.store i v).fcause = s.fcause := rfl
@[simp] theorem State.store_pending (i : Nat) (v : Byte) : (s.store i v).pending = s.pending := rfl
@[simp] theorem State.store_responses (i : Nat) (v : Byte) : (s.store i v).responses = s.responses := rfl

/-! ### `State.clear` -/

@[simp] theorem State.clear_buf : (s.clear).buf = [] := rfl
@[simp] theorem State.clear_len : (s.clear).len = 0 := rfl
@[simp] theorem State.clear_ckerr : (s.clear).ckerr = s.ckerr := rfl
@[simp] theorem State.clear_fault : (s.clear).fault = s.fault := rfl
@[simp] theorem State.clear_fcause : (s.clear).fcause = s.fcause := rfl
@[simp] theorem State.clear_pending : (s.clear).pending = s.pending := rfl
@[simp] theorem State.clear_responses : (s.clear).responses = s.responses := rfl

/-! ### `State.setCkerr` -/

@[simp] theorem State.setCkerr_buf (v : Bool) : (s.setCkerr v).buf = s.buf := rfl
@[simp] theorem State.setCkerr_len (v : Bool) : (s.setCkerr v).len = s.len := rfl
@[simp] theorem State.setCkerr_ckerr (v : Bool) : (s.setCkerr v).ckerr = v := rfl
@[simp] theorem State.setCkerr_fault (v : Bool) : (s.setCkerr v).fault = s.fault := rfl
@[simp] theorem State.setCkerr_fcause (v : Bool) : (s.setCkerr v).fcause = s.fcause := rfl
@[simp] theorem State.setCkerr_pending (v : Bool) : (s.setCkerr v).pending = s.pending := rfl
@[simp] theorem State.setCkerr_responses (v : Bool) : (s.setCkerr v).responses = s.responses := rfl

/-! ### The views -/

/-- The bytes of a state are decided by its buffer and its length. -/
theorem State.bytes_congr {s t : State} (hb : t.buf = s.buf) (hl : t.len = s.len) : t.bytes = s.bytes := by
  simp [State.bytes, hb, hl]

/-- So is one byte. -/
theorem State.byte?_congr {s t : State} (hb : t.buf = s.buf) (hl : t.len = s.len) (i : Nat) :
    t.byte? i = s.byte? i := by
  simp [State.byte?, hb, hl]

@[simp] theorem State.answer_bytes (res : Res) (rdata : Byte) : (s.answer res rdata).bytes = s.bytes := rfl
@[simp] theorem State.answer_byte? (res : Res) (rdata : Byte) (i : Nat) :
    (s.answer res rdata).byte? i = s.byte? i := rfl
@[simp] theorem State.answer_status (res : Res) (rdata : Byte) : (s.answer res rdata).status = s.status := rfl
@[simp] theorem State.setCkerr_bytes (v : Bool) : (s.setCkerr v).bytes = s.bytes := rfl
@[simp] theorem State.setCkerr_byte? (v : Bool) (i : Nat) : (s.setCkerr v).byte? i = s.byte? i := rfl

@[simp] theorem State.bytes_length : s.bytes.length = s.len.toNat := by simp [State.bytes]

/-- `BUF` as a list and as single bytes say the same. -/
theorem State.bytes_getElem? (i : Nat) : s.bytes[i]? = s.byte? i := by
  by_cases h : i < s.len.toNat
  · simp [State.bytes, State.byte?, h]
  · simp [State.bytes, State.byte?, h]

/-- A byte below `LEN` exists. -/
theorem State.byte?_of_lt {i : Nat} (h : i < s.len.toNat) : s.byte? i = some (s.buf.read i) := by
  simp [State.byte?, h]

/-- No byte exists at or above `LEN`. -/
theorem State.byte?_of_le {i : Nat} (h : s.len.toNat ≤ i) : s.byte? i = none := by
  simp [State.byte?, Nat.not_lt.mpr h]

end Sys2Proof.Machine
end

