-- ==== Sys2Proof/Laws/Memory.lean ====
section
/-! SUPPORT. The laws of the frame buffer: every operation keeps the canonical form, and what is read after a write. -/

namespace Sys2Proof.Machine

/-- Every index of a memory is at least `n`. -/
abbrev Memory.AtLeast (n : Nat) (m : Memory) : Prop := ∀ c ∈ m, n ≤ c.1

/-! ### Small facts of `cons` -/

theorem Memory.mem_cons {i : Nat} {v : Byte} {m : Memory} {c : Host.Cell} (h : c ∈ Memory.cons i v m) :
    c = (i, v) ∨ c ∈ m := by
  unfold Memory.cons at h
  split at h
  · exact .inr h
  · simpa using h

theorem Memory.wf_tail {c : Host.Cell} {m : Memory} (h : Memory.wf (c :: m)) : Memory.wf m :=
  ⟨(List.pairwise_cons.mp h.1).2, fun d hd => h.2 d (by simp [hd])⟩

theorem Memory.lt_of_wf_cons {c : Host.Cell} {m : Memory} (h : Memory.wf (c :: m)) : ∀ d ∈ m, c.1 < d.1 :=
  (List.pairwise_cons.mp h.1).1

theorem Memory.cons_wf {i : Nat} {v : Byte} {m : Memory} (hm : Memory.wf m) (hi : ∀ d ∈ m, i < d.1) :
    Memory.wf (Memory.cons i v m) := by
  unfold Memory.cons
  split
  · exact hm
  · rename_i hv
    exact ⟨List.pairwise_cons.mpr ⟨hi, hm.1⟩, by
      intro c hc
      rcases List.mem_cons.mp hc with rfl | hc
      · exact hv
      · exact hm.2 c hc⟩

/-! ### Reading -/

/-- An index below every cell is unlisted. -/
theorem Memory.read_of_lt {m : Memory} {i : Nat} (h : ∀ c ∈ m, i < c.1) : m.read i = Memory.unlisted := by
  induction m with
  | nil => rfl
  | cons c m ih =>
    have hc : c.1 ≠ i := Nat.ne_of_gt (h c (by simp))
    simpa [Memory.read, hc] using ih fun d hd => h d (by simp [hd])

theorem Memory.read_cons_self {i : Nat} {v : Byte} {m : Memory} (h : ∀ c ∈ m, i < c.1) :
    (Memory.cons i v m).read i = v := by
  unfold Memory.cons
  split
  · rename_i hv; rw [hv, Memory.read_of_lt h]
  · simp [Memory.read]

theorem Memory.read_cons_ne {i j : Nat} {v : Byte} {m : Memory} (h : j ≠ i) :
    (Memory.cons i v m).read j = m.read j := by
  unfold Memory.cons
  split
  · rfl
  · simp [Memory.read, Ne.symm h]

/-! ### `write` -/

theorem Memory.mem_write {m : Memory} {i : Nat} {v : Byte} {c : Host.Cell} (h : c ∈ m.write i v) :
    c = (i, v) ∨ c ∈ m := by
  induction m with
  | nil => exact Memory.mem_cons h
  | cons d m ih =>
    unfold Memory.write at h
    split at h
    · exact Memory.mem_cons h
    · split at h
      · exact (Memory.mem_cons h).imp_right fun hc => by simp [hc]
      · rcases List.mem_cons.mp h with rfl | h
        · simp
        · exact (ih h).imp_right fun hc => by simp [hc]

/-- A write keeps the canonical form. -/
theorem Memory.write_wf {m : Memory} (i : Nat) (v : Byte) (hm : m.wf) : (m.write i v).wf := by
  induction m with
  | nil => exact Memory.cons_wf hm (by simp)
  | cons c m ih =>
    have hlt := Memory.lt_of_wf_cons hm
    unfold Memory.write
    split
    · rename_i hi
      exact Memory.cons_wf hm fun d hd => by
        rcases List.mem_cons.mp hd with rfl | hd
        · exact hi
        · exact Nat.lt_trans hi (hlt d hd)
    · split
      · rename_i hi
        exact Memory.cons_wf (Memory.wf_tail hm) fun d hd => hi ▸ hlt d hd
      · rename_i h1 h2
        have ht := ih (Memory.wf_tail hm)
        refine ⟨List.pairwise_cons.mpr ⟨fun d hd => ?_, ht.1⟩, fun d hd => ?_⟩
        · rcases Memory.mem_write hd with rfl | hd
          · exact Nat.lt_of_le_of_ne (Nat.le_of_not_lt h1) (Ne.symm h2)
          · exact hlt d hd
        · rcases List.mem_cons.mp hd with rfl | hd
          · exact hm.2 _ (by simp)
          · exact ht.2 d hd

/-- What is read after a write: the byte written at its index, and every other index as before. -/
theorem Memory.read_write {m : Memory} (i j : Nat) (v : Byte) (hm : m.wf) :
    (m.write i v).read j = if j = i then v else m.read j := by
  induction m with
  | nil =>
    by_cases h : j = i
    · subst h; simpa [Memory.write] using Memory.read_cons_self (v := v) (m := []) (i := j) (by simp)
    · simp [Memory.write, Memory.read_cons_ne h, h]
  | cons c m ih =>
    have hlt := Memory.lt_of_wf_cons hm
    unfold Memory.write
    split
    · rename_i hi
      by_cases h : j = i
      · subst h
        simp only [if_true]
        exact Memory.read_cons_self fun d hd => by
          rcases List.mem_cons.mp hd with rfl | hd
          · exact hi
          · exact Nat.lt_trans hi (hlt d hd)
      · rw [Memory.read_cons_ne h]; simp [h]
    · split
      · rename_i hi
        by_cases h : j = i
        · subst h
          simp only [if_true]
          exact Memory.read_cons_self fun d hd => hi ▸ hlt d hd
        · rw [Memory.read_cons_ne h]; simp [Memory.read, h, Ne.symm (hi ▸ h)]
      · rename_i h1 h2
        by_cases h : c.1 = j
        · have : j ≠ i := fun e => h2 (by rw [h, e])
          simp [Memory.read, h, this]
        · simp [Memory.read, h, ih (Memory.wf_tail hm)]

/-- A write lists no index but its own. -/
theorem Memory.write_below {m : Memory} {i n : Nat} {v : Byte} (hi : i < n) (hm : ∀ c ∈ m, c.1 < n) :
    ∀ c ∈ m.write i v, c.1 < n := by
  intro c hc
  rcases Memory.mem_write hc with rfl | hc
  · exact hi
  · exact hm c hc

/-! ### `ofBytes` -/

theorem Memory.ofBytesFrom_atLeast (i : Nat) (bs : List Byte) : Memory.AtLeast i (Memory.ofBytesFrom i bs) := by
  induction bs generalizing i with
  | nil => simp [Memory.ofBytesFrom]
  | cons b bs ih =>
    intro c hc
    rcases Memory.mem_cons hc with rfl | hc
    · exact Nat.le_refl _
    · exact Nat.le_of_succ_le (ih (i + 1) c hc)

theorem Memory.ofBytesFrom_wf (i : Nat) (bs : List Byte) : (Memory.ofBytesFrom i bs).wf := by
  induction bs generalizing i with
  | nil => exact ⟨List.Pairwise.nil, by simp [Memory.ofBytesFrom]⟩
  | cons b bs ih => exact Memory.cons_wf (ih (i + 1)) (Memory.ofBytesFrom_atLeast (i + 1) bs)

theorem Memory.ofBytesFrom_below (i : Nat) (bs : List Byte) :
    ∀ c ∈ Memory.ofBytesFrom i bs, c.1 < i + bs.length := by
  induction bs generalizing i with
  | nil => simp [Memory.ofBytesFrom]
  | cons b bs ih =>
    intro c hc
    rcases Memory.mem_cons hc with rfl | hc
    · simp
    · have := ih (i + 1) c hc
      simp only [List.length_cons]; omega

theorem Memory.read_ofBytesFrom (i j : Nat) (bs : List Byte) :
    (Memory.ofBytesFrom i bs).read (i + j) = bs.getD j Memory.unlisted := by
  induction bs generalizing i j with
  | nil => rfl
  | cons b bs ih =>
    cases j with
    | zero => exact Memory.read_cons_self (Memory.ofBytesFrom_atLeast (i + 1) bs)
    | succ j =>
      have := ih (i + 1) j
      rw [show i + 1 + j = i + (j + 1) by omega] at this
      rw [Memory.ofBytesFrom, Memory.read_cons_ne (by omega), this]
      simp

/-- The memory of a byte sequence is in canonical form. -/
theorem Memory.ofBytes_wf (bs : List Byte) : (Memory.ofBytes bs).wf := Memory.ofBytesFrom_wf 0 bs

/-- It lists no index at or above the sequence's length. -/
theorem Memory.ofBytes_below (bs : List Byte) : ∀ c ∈ Memory.ofBytes bs, c.1 < bs.length := by
  simpa [Memory.ofBytes] using Memory.ofBytesFrom_below 0 bs

/-- It reads as the sequence. -/
theorem Memory.read_ofBytes (bs : List Byte) (i : Nat) :
    (Memory.ofBytes bs).read i = bs.getD i Memory.unlisted := by
  simpa [Memory.ofBytes] using Memory.read_ofBytesFrom 0 i bs

/-- The empty memory, that of reset and of CLRB, is in canonical form. -/
theorem Memory.nil_wf : Memory.wf [] := ⟨List.Pairwise.nil, by simp⟩

theorem State.reset_buf_wf : State.reset.buf.wf := Memory.nil_wf

/-- Memories in canonical form that read alike are equal. -/
theorem Memory.ext_of_wf {m n : Memory} (hm : m.wf) (hn : n.wf) (h : ∀ i, m.read i = n.read i) : m = n := by
  induction m generalizing n with
  | nil =>
    cases n with
    | nil => rfl
    | cons d n => exact absurd (by simpa [Memory.read] using (h d.1).symm) (hn.2 d (by simp))
  | cons c m ih =>
    have hc := hm.2 c (by simp)
    cases n with
    | nil => exact absurd (by simpa [Memory.read] using h c.1) hc
    | cons d n =>
      have hd := hn.2 d (by simp)
      have hcm := Memory.lt_of_wf_cons hm
      have hdn := Memory.lt_of_wf_cons hn
      have e : c.1 = d.1 := by
        rcases Nat.lt_trichotomy c.1 d.1 with hlt | he | hlt
        · have := h c.1
          rw [Memory.read_of_lt (m := d :: n) (i := c.1) (by
            intro x hx
            rcases List.mem_cons.mp hx with rfl | hx
            · exact hlt
            · exact Nat.lt_trans hlt (hdn x hx))] at this
          exact absurd (by simpa [Memory.read] using this) hc
        · exact he
        · have := h d.1
          rw [Memory.read_of_lt (m := c :: m) (i := d.1) (by
            intro x hx
            rcases List.mem_cons.mp hx with rfl | hx
            · exact hlt
            · exact Nat.lt_trans hlt (hcm x hx))] at this
          exact absurd (by simpa [Memory.read] using this.symm) hd
      have e2 : c.2 = d.2 := by simpa [Memory.read, e] using h c.1
      have htail : m = n := ih (Memory.wf_tail hm) (Memory.wf_tail hn) fun i => by
        by_cases hi : c.1 = i
        · rw [Memory.read_of_lt fun x hx => hi ▸ hcm x hx, Memory.read_of_lt fun x hx => hi ▸ e ▸ hdn x hx]
        · simpa [Memory.read, hi, e ▸ hi] using h i
      rw [htail, Prod.ext e e2]

/-! ### The state's buffer -/

/-- `overwrite` with as many bytes as there are makes `BUF` those bytes. -/
theorem State.overwrite_bytes (s : State) {bs : List Byte} (h : bs.length = s.len.toNat) :
    (s.overwrite bs).bytes = bs := by
  apply List.ext_getElem
  · simp [h]
  · intro i h1 h2
    simp [State.bytes, Memory.read_ofBytes, List.getD_eq_getElem?_getD, h2]

/-- `load` makes `BUF` the byte sequence, if `LEN` can count it. -/
theorem State.load_bytes (s : State) {bs : List Byte} (h : bs.length < 256) : (s.load bs).bytes = bs := by
  have hl : (BitVec.ofNat 8 bs.length).toNat = bs.length := by simp; omega
  apply List.ext_getElem
  · simp; omega
  · intro i h1 h2
    simp [State.bytes, Memory.read_ofBytes, List.getD_eq_getElem?_getD, h2]

/-- One byte after a store. -/
theorem State.store_byte? (s : State) {i j : Nat} {v : Byte} (hm : s.buf.wf) :
    (s.store i v).byte? j = if j = i ∧ j < s.len.toNat then some v else s.byte? j := by
  by_cases e : j = i
  · subst e
    by_cases h : j < s.len.toNat <;> simp [State.byte?, Memory.read_write j j v hm, h]
  · simp [State.byte?, Memory.read_write i j v hm, e]

end Sys2Proof.Machine
end

