-- ==== Sys2Proof/Laws/Ops.lean ====
section
/-! SUPPORT. For each shared operation the one lemma that says everything it can do; then what an instruction and a step can do. -/

namespace Sys2Proof.Machine

variable {s t : State}

/-! ### Responses and faults -/

theorem respond_next {res : Res} {rdata : Byte} : respond res rdata s = .next t ↔ t = s.answer res rdata := by
  simp [respond, eq_comm]

theorem raiseFault_next {c : Cause} : raiseFault c s = .next t ↔ t = (s.faulted c).answer .fault 0x00 :=
  respond_next

theorem refuseRequest_next : refuseRequest s = .next t ↔ t = s.answer .fault 0x00 := respond_next

@[simp] theorem unlessFaulted_of_fault {k : Host.Outcome State Fault Refusal} (h : s.fault = true) :
    unlessFaulted s k = .next (s.answer .fault 0x00) := by
  simp [unlessFaulted, h, refuseRequest, respond]

@[simp] theorem unlessFaulted_of_not_fault {k : Host.Outcome State Fault Refusal} (h : s.fault = false) :
    unlessFaulted s k = k := by
  simp [unlessFaulted, h]

theorem unlessFaulted_next {k : Host.Outcome State Fault Refusal} :
    unlessFaulted s k = .next t ↔
      (s.fault = true ∧ t = s.answer .fault 0x00) ∨ (s.fault = false ∧ k = .next t) := by
  cases h : s.fault <;> simp [h, eq_comm]

theorem illegalRequest_next :
    illegalRequest s = .next t ↔
      (s.fault = true ∧ t = s.answer .fault 0x00) ∨
      (s.fault = false ∧ t = (s.faulted .illegalRequest).answer .fault 0x00) := by
  rw [illegalRequest, unlessFaulted_next, raiseFault_next]

/-- The codes of R163: 1 to 5. -/
theorem Cause.code_bounds (c : Cause) : 1 ≤ c.code.toNat ∧ c.code.toNat ≤ 5 := by
  cases c <;> decide

/-! ### The operands -/

theorem indexed_none {idx : Byte} : indexed idx s = none ↔ s.len.toNat ≤ idx.toNat := by
  by_cases h : idx.toNat < s.len.toNat <;> simp [indexed, State.byte?, h]
  exact Nat.le_of_not_lt h

theorem indexed_some {idx v : Byte} :
    indexed idx s = some v ↔ idx.toNat < s.len.toNat ∧ s.buf.read idx.toNat = v := by
  by_cases h : idx.toNat < s.len.toNat <;> simp [indexed, State.byte?, h]

theorem encPassesThrough_iff {n : Nat} : encPassesThrough n = true ↔ n ≤ 2 :=
  decide_eq_true_iff

theorem encAdmits_iff {n : Nat} : encAdmits n = true ↔ (n - 2) % 3 = 0 :=
  decide_eq_true_iff

theorem decAdmits_iff {n : Nat} : decAdmits n = true ↔ n % 3 = 0 :=
  decide_eq_true_iff

theorem encWords_eq (n : Nat) : encWords n = (n - 2) / 3 := rfl

/-! ### The codec operations -/

theorem encodeBuffer_next {f : List Byte → List Byte} :
    encodeBuffer f s = .next t ↔
      (s.fault = true ∧ t = s.answer .fault 0x00) ∨
      (s.fault = false ∧ s.len.toNat ≤ 2 ∧ t = s.answer .ok 0x00) ∨
      (s.fault = false ∧ 2 < s.len.toNat ∧ (s.len.toNat - 2) % 3 = 0 ∧
        t = (s.overwrite (f s.bytes)).answer .ok 0x00) ∨
      (s.fault = false ∧ 2 < s.len.toNat ∧ (s.len.toNat - 2) % 3 ≠ 0 ∧
        t = (s.faulted .encLength).answer .fault 0x00) := by
  rw [encodeBuffer, unlessFaulted_next]
  by_cases h2 : s.len.toNat ≤ 2
  · simp [encPassesThrough_iff.mpr h2, respond_next, h2, Nat.not_lt.mpr h2]
  · have hp : ¬ encPassesThrough s.len.toNat = true := fun h => h2 (encPassesThrough_iff.mp h)
    by_cases h3 : (s.len.toNat - 2) % 3 = 0
    · simp [hp, encAdmits_iff.mpr h3, respond_next, h2, h3, Nat.lt_of_not_le h2]
    · have ha : ¬ encAdmits s.len.toNat = true := fun h => h3 (encAdmits_iff.mp h)
      simp [hp, ha, raiseFault_next, h2, h3, Nat.lt_of_not_le h2]

theorem dec_cases (bs : List Byte) :
    (checksumsMatch bs = true ∧ dec bs = .ok (dataBytes bs)) ∨
    (checksumsMatch bs = false ∧ dec bs = .checksumError) := by
  cases h : checksumsMatch bs <;> simp [dec, h]

theorem execDec_next :
    execDec s = .next t ↔
      (s.fault = true ∧ t = s.answer .fault 0x00) ∨
      (s.fault = false ∧ s.len.toNat % 3 ≠ 0 ∧ t = (s.faulted .decLength).answer .fault 0x00) ∨
      (s.fault = false ∧ s.len.toNat % 3 = 0 ∧ checksumsMatch s.bytes = true ∧
        t = ((s.load (dataBytes s.bytes)).setCkerr false).answer .ok 0x00) ∨
      (s.fault = false ∧ s.len.toNat % 3 = 0 ∧ checksumsMatch s.bytes = false ∧
        t = (s.setCkerr true).answer .ckerr 0x00) := by
  rw [execDec, unlessFaulted_next]
  by_cases h3 : s.len.toNat % 3 = 0
  · rw [if_pos (decAdmits_iff.mpr h3)]
    rcases dec_cases s.bytes with ⟨hm, hd⟩ | ⟨hm, hd⟩ <;> simp [hd, hm, h3, respond_next]
  · rw [if_neg fun h => h3 (decAdmits_iff.mp h)]
    simp [h3, raiseFault_next]

/-! ### What an instruction can do -/

/-- The state a completed instruction leaves, before its response, and the data of that response. -/
inductive Completes : Instr → State → State → Byte → Prop where
  | crcw (s : State) (b0 b1 : Byte) : Completes (.crcw b0 b1) s s (crc8Word b0 b1)
  | encPass (s : State) (i : Instr) (hi : i = .encf ∨ i = .enci) (h : s.len.toNat ≤ 2) : Completes i s s 0x00
  | encf (s : State) (h : 2 < s.len.toNat) (h3 : (s.len.toNat - 2) % 3 = 0) :
      Completes .encf s (s.overwrite (enc s.bytes)) 0x00
  | enci (s : State) (h : 2 < s.len.toNat) (h3 : (s.len.toNat - 2) % 3 = 0) :
      Completes .enci s (s.overwrite (encI s.bytes)) 0x00
  | dec (s : State) (h3 : s.len.toNat % 3 = 0) (hm : checksumsMatch s.bytes = true) :
      Completes .dec s ((s.load (dataBytes s.bytes)).setCkerr false) 0x00
  | clrb (s : State) : Completes .clrb s s.clear 0x00
  | push (s : State) (val : Byte) (h : s.len.toNat ≠ Config.bufSize) : Completes (.push val) s (s.append val) 0x00
  | wrb (s : State) (idx val : Byte) (h : idx.toNat < s.len.toNat) :
      Completes (.wrb idx val) s (s.store idx.toNat val) 0x00
  | rdb (s : State) (idx : Byte) (h : idx.toNat < s.len.toNat) :
      Completes (.rdb idx) s s (s.buf.read idx.toNat)
  | getl (s : State) : Completes .getl s s s.len
  | gets (s : State) : Completes .gets s s s.status

/-- The causes an instruction raises, and when (R163). -/
inductive Raises : Instr → State → Cause → Prop where
  | enc (s : State) (i : Instr) (hi : i = .encf ∨ i = .enci) (h : 2 < s.len.toNat) (h3 : (s.len.toNat - 2) % 3 ≠ 0) :
      Raises i s .encLength
  | dec (s : State) (h3 : s.len.toNat % 3 ≠ 0) : Raises .dec s .decLength
  | push (s : State) (val : Byte) (h : s.len.toNat = Config.bufSize) : Raises (.push val) s .overflow
  | wrb (s : State) (idx val : Byte) (h : s.len.toNat ≤ idx.toNat) : Raises (.wrb idx val) s .indexRange
  | rdb (s : State) (idx : Byte) (h : s.len.toNat ≤ idx.toNat) : Raises (.rdb idx) s .indexRange

/-- The four ways an instruction can end (R160, R164): refused, a fault, DEC's checksum error, completed. -/
theorem exec_cases {i : Instr} (h : exec i s = .next t) :
    (s.fault = true ∧ i ≠ .gets ∧ t = s.answer .fault 0x00) ∨
    (s.fault = false ∧ ∃ c, Raises i s c ∧ t = (s.faulted c).answer .fault 0x00) ∨
    (s.fault = false ∧ i = .dec ∧ s.len.toNat % 3 = 0 ∧ checksumsMatch s.bytes = false ∧
      t = (s.setCkerr true).answer .ckerr 0x00) ∨
    ((s.fault = false ∨ i = .gets) ∧ ∃ u v, Completes i s u v ∧ t = u.answer .ok v) := by
  cases i with
  | crcw b0 b1 =>
    rcases unlessFaulted_next.mp h with ⟨hf, ht⟩ | ⟨hf, hk⟩
    · exact .inl ⟨hf, by simp, ht⟩
    · exact .inr (.inr (.inr ⟨.inl hf, _, _, .crcw s b0 b1, respond_next.mp hk⟩))
  | encf =>
    rcases encodeBuffer_next.mp h with ⟨hf, ht⟩ | ⟨hf, h2, ht⟩ | ⟨hf, h2, h3, ht⟩ | ⟨hf, h2, h3, ht⟩
    · exact .inl ⟨hf, by simp, ht⟩
    · exact .inr (.inr (.inr ⟨.inl hf, _, _, .encPass s _ (.inl rfl) h2, ht⟩))
    · exact .inr (.inr (.inr ⟨.inl hf, _, _, .encf s h2 h3, ht⟩))
    · exact .inr (.inl ⟨hf, _, .enc s _ (.inl rfl) h2 h3, ht⟩)
  | enci =>
    rcases encodeBuffer_next.mp h with ⟨hf, ht⟩ | ⟨hf, h2, ht⟩ | ⟨hf, h2, h3, ht⟩ | ⟨hf, h2, h3, ht⟩
    · exact .inl ⟨hf, by simp, ht⟩
    · exact .inr (.inr (.inr ⟨.inl hf, _, _, .encPass s _ (.inr rfl) h2, ht⟩))
    · exact .inr (.inr (.inr ⟨.inl hf, _, _, .enci s h2 h3, ht⟩))
    · exact .inr (.inl ⟨hf, _, .enc s _ (.inr rfl) h2 h3, ht⟩)
  | dec =>
    rcases execDec_next.mp h with ⟨hf, ht⟩ | ⟨hf, h3, ht⟩ | ⟨hf, h3, hm, ht⟩ | ⟨hf, h3, hm, ht⟩
    · exact .inl ⟨hf, by simp, ht⟩
    · exact .inr (.inl ⟨hf, _, .dec s h3, ht⟩)
    · exact .inr (.inr (.inr ⟨.inl hf, _, _, .dec s h3 hm, ht⟩))
    · exact .inr (.inr (.inl ⟨hf, rfl, h3, hm, ht⟩))
  | clrb =>
    rcases unlessFaulted_next.mp h with ⟨hf, ht⟩ | ⟨hf, hk⟩
    · exact .inl ⟨hf, by simp, ht⟩
    · exact .inr (.inr (.inr ⟨.inl hf, _, _, .clrb s, respond_next.mp hk⟩))
  | push val =>
    rcases unlessFaulted_next.mp h with ⟨hf, ht⟩ | ⟨hf, hk⟩
    · exact .inl ⟨hf, by simp, ht⟩
    · by_cases hl : s.len.toNat = Config.bufSize
      · rw [if_pos hl] at hk
        exact .inr (.inl ⟨hf, _, .push s val hl, raiseFault_next.mp hk⟩)
      · rw [if_neg hl] at hk
        exact .inr (.inr (.inr ⟨.inl hf, _, _, .push s val hl, respond_next.mp hk⟩))
  | wrb idx val =>
    rcases unlessFaulted_next.mp h with ⟨hf, ht⟩ | ⟨hf, hk⟩
    · exact .inl ⟨hf, by simp, ht⟩
    · cases hx : indexed idx s with
      | none =>
        rw [hx] at hk
        exact .inr (.inl ⟨hf, _, .wrb s idx val (indexed_none.mp hx), raiseFault_next.mp hk⟩)
      | some v =>
        rw [hx] at hk
        exact .inr (.inr (.inr ⟨.inl hf, _, _, .wrb s idx val (indexed_some.mp hx).1, respond_next.mp hk⟩))
  | rdb idx =>
    rcases unlessFaulted_next.mp h with ⟨hf, ht⟩ | ⟨hf, hk⟩
    · exact .inl ⟨hf, by simp, ht⟩
    · cases hx : indexed idx s with
      | none =>
        rw [hx] at hk
        exact .inr (.inl ⟨hf, _, .rdb s idx (indexed_none.mp hx), raiseFault_next.mp hk⟩)
      | some v =>
        rw [hx] at hk
        obtain ⟨hlt, rfl⟩ := indexed_some.mp hx
        exact .inr (.inr (.inr ⟨.inl hf, _, _, .rdb s idx hlt, respond_next.mp hk⟩))
  | getl =>
    rcases unlessFaulted_next.mp h with ⟨hf, ht⟩ | ⟨hf, hk⟩
    · exact .inl ⟨hf, by simp, ht⟩
    · exact .inr (.inr (.inr ⟨.inl hf, _, _, .getl s, respond_next.mp hk⟩))
  | gets => exact .inr (.inr (.inr ⟨.inr rfl, _, _, .gets s, respond_next.mp h⟩))

/-- The other direction: where an instruction completes, `exec` answers that state. -/
theorem Completes.exec_eq {i : Instr} {u : State} {v : Byte} (h : Completes i s u v) (hs : s.fault = false ∨ i = .gets) :
    exec i s = .next (u.answer .ok v) := by
  rcases hs with hs | rfl
  swap
  · cases h with
    | encPass _ _ hi => simp at hi
    | gets => rfl
  cases h with
  | encPass _ i hi h2 => rcases hi with rfl | rfl <;> exact encodeBuffer_next.mpr (.inr (.inl ⟨hs, h2, rfl⟩))
  | encf _ h2 h3 => exact encodeBuffer_next.mpr (.inr (.inr (.inl ⟨hs, h2, h3, rfl⟩)))
  | enci _ h2 h3 => exact encodeBuffer_next.mpr (.inr (.inr (.inl ⟨hs, h2, h3, rfl⟩)))
  | dec _ h3 hm => exact execDec_next.mpr (.inr (.inr (.inl ⟨hs, h3, hm, rfl⟩)))
  | wrb _ idx v h => simp [exec, execWrb, hs, respond, indexed_some.mpr ⟨h, rfl⟩]
  | rdb _ idx h => simp [exec, execRdb, hs, respond, indexed_some.mpr ⟨h, rfl⟩]
  | push _ v h => simp [exec, execPush, hs, respond, h]
  | crcw | clrb | getl | gets => simp [exec, execCrcw, execClrb, execGetl, execGets, hs, respond]

/-! ### What a step can do -/

theorem takeEvent_none : takeEvent s = none ↔ s.pending = [] := by
  unfold takeEvent
  split <;> simp_all

theorem takeEvent_cons {e : HostEvent} {rest : List HostEvent} (h : s.pending = e :: rest) :
    takeEvent s = some (e, { s with pending := rest }) := by
  simp [takeEvent, h]

/-- The four kinds of step: idle, the reset input, a request that decodes, an illegal request. -/
theorem step_cases (h : step s = .next t) :
    (s.pending = [] ∧ t = s) ∨
    (∃ rest, s.pending = .rst :: rest ∧ t = { State.reset with pending := rest, responses := s.responses }) ∨
    (∃ w rest i, s.pending = .request w :: rest ∧ decode w = .ok i ∧
      exec i { s with pending := rest } = .next t) ∨
    (∃ w rest e, s.pending = .request w :: rest ∧ decode w = .error e ∧
      illegalRequest { s with pending := rest } = .next t) := by
  unfold step at h
  cases hp : s.pending with
  | nil =>
    rw [takeEvent_none.mpr hp] at h
    exact .inl ⟨rfl, by simpa [idle, eq_comm] using h⟩
  | cons e rest =>
    rw [takeEvent_cons hp] at h
    cases e with
    | rst => exact .inr (.inl ⟨rest, rfl, by simpa [serveEvent, State.afterReset, eq_comm] using h⟩)
    | request w =>
      cases hd : decode w with
      | ok i => exact .inr (.inr (.inl ⟨w, rest, i, rfl, hd, by simpa [serveEvent, serveRequest, hd] using h⟩))
      | error e => exact .inr (.inr (.inr ⟨w, rest, e, rfl, hd, by simpa [serveEvent, serveRequest, hd] using h⟩))

end Sys2Proof.Machine
end

