-- ==== Sys2Proof/Laws/Codec.lean ====
section
/-! SUPPORT. Lengths and small equations of the codec's functions on byte sequences, and the checksum functions' first facts. -/

namespace Sys2Proof.Machine

@[simp] theorem fillSlots_length (s : List Byte) : (fillSlots s).length = s.length := by
  induction s using fillSlots.induct with
  | case1 d0 d1 p body ih => simp [fillSlots, ih]
  | case2 rest h => simp [fillSlots.eq_2 rest h]

@[simp] theorem enc_length (s : List Byte) : (enc s).length = s.length := by
  unfold enc
  split <;> simp

theorem frameWords_length {d : List Byte} {k : Nat} (h : d.length = 2 * k) : (frameWords d).length = 3 * k := by
  induction k generalizing d with
  | zero => rw [List.eq_nil_of_length_eq_zero h]; rfl
  | succ k ih =>
    match d, h with
    | d0 :: d1 :: d, h =>
      have := ih (d := d) (by simp only [List.length_cons] at h; omega)
      simp only [frameWords, List.length_cons, this]; omega

theorem dataBytes_length {s : List Byte} {k : Nat} (h : s.length = 3 * k) : (dataBytes s).length = 2 * k := by
  induction k generalizing s with
  | zero => rw [List.eq_nil_of_length_eq_zero h]; rfl
  | succ k ih =>
    match s, h with
    | d0 :: d1 :: c :: s, h =>
      have := ih (s := s) (by simp only [List.length_cons] at h; omega)
      simp only [dataBytes, List.length_cons, this]; omega

/-- `encI` keeps every length encode admits. -/
theorem encI_length {s : List Byte} (h : s.length ≤ 2 ∨ (s.length - 2) % 3 = 0) : (encI s).length = s.length := by
  unfold encI
  split
  · rfl
  · rename_i hp
    have h2 : 2 < s.length := by
      rw [encPassesThrough_iff] at hp; omega
    have hk : ((s.drop Config.hdr).take (Config.wordBytes * encWords s.length)).length = 2 * ((s.length - 2) / 3) := by
      simp only [List.length_take, List.length_drop, Config.hdr, Config.wordBytes, encWords_eq]; omega
    rw [frame, List.length_append, frameWords_length hk]
    simp only [List.length_take, Config.hdr]; omega

/-- The data bytes of any sequence are no more than its bytes. -/
theorem dataBytes_length_le (s : List Byte) : (dataBytes s).length ≤ s.length := by
  induction s using dataBytes.induct with
  | case1 d0 d1 c s ih => simp only [dataBytes, List.length_cons]; omega
  | case2 s h => simp [dataBytes.eq_2 s h]

/-- The byte step depends on the accumulator and the byte only through their exclusive or (R84). -/
theorem crc8Byte_eq (acc x : Byte) : crc8Byte acc x = crc8Shift^[8] (acc ^^^ x) := rfl

end Sys2Proof.Machine
end

