-- ==== Sys2Proof/Laws/PerInstr.lean ====
section
/-! SUPPORT. The per-instruction family `WordLegal`: the field values an instruction stands for are a legal request, and the
decoder reads that instruction from them. -/

namespace Sys2Proof.Laws.WordLegal

/-- The request of an instruction breaks no condition of R53, and its fields decode to the instruction. -/
def Statement (i : Instr) : Prop := i.wf = true ∧ decodeFields i.fields = .ok i

theorem crcw (b0 b1 : Byte) : Statement (.crcw b0 b1) := ⟨rfl, rfl⟩
theorem encf : Statement .encf := ⟨rfl, rfl⟩
theorem enci : Statement .enci := ⟨rfl, rfl⟩
theorem dec : Statement .dec := ⟨rfl, rfl⟩
theorem clrb : Statement .clrb := ⟨rfl, rfl⟩
theorem push (val : Byte) : Statement (.push val) := ⟨rfl, rfl⟩
theorem wrb (idx val : Byte) : Statement (.wrb idx val) := ⟨rfl, rfl⟩
theorem rdb (idx : Byte) : Statement (.rdb idx) := ⟨rfl, rfl⟩
theorem getl : Statement .getl := ⟨rfl, rfl⟩
theorem gets : Statement .gets := ⟨rfl, rfl⟩

end Sys2Proof.Laws.WordLegal
end

