-- ==== Sys2Proof/Tests/Slice0.lean ====
section
/-! SUPPORT. The model's own tests: words written out bit by bit from R50 to R56, the well-formedness checks, the vectors of
95_test_vectors.md (V1 to V9, P4, P6), each one step, and a witness for the hypotheses of each obligation. The expected values
are the spec's. -/

namespace Sys2Proof.Tests
open Sys2Proof.Machine Sys2Proof.Claim

/-- A state at reset but for the bytes in the buffer. -/
def holding (bs : List Byte) : State := State.reset.load bs

/-- The same after DEC faulted on a bad length: `FAULT = 1`, `FCAUSE = 3` (P6). -/
def faultedHolding (bs : List Byte) : State := (holding bs).faulted .decLength

/-- What a test looks at in an outcome: the bytes of `BUF`, `STATUS`, and the last response word. -/
def seen : Host.Outcome State Fault Refusal → Option (List Byte × Byte × Option RspWord)
  | .next s => some (s.bytes, s.status, s.responses.getLast?.map Response.word)
  | _ => none

/-- What is seen after one step that serves the request word `w` with the bytes `bs` in the buffer. -/
def serving (bs : List Byte) (w : Nat) : Option (List Byte × Byte × Option RspWord) :=
  seen (step ((holding bs).withFetchWord 24 w))

/-! ### Decoding: one word of every operation, bit by bit: op, rsv, a, b -/

theorem test_decode_crcw : decode 0b0001_0000_10111110_11101111 = .ok (.crcw 0xBE 0xEF) := by decide
theorem test_decode_encf : decode 0b0010_0000_00000000_00000000 = .ok .encf := by decide
theorem test_decode_enci : decode 0b0011_0000_00000000_00000000 = .ok .enci := by decide
theorem test_decode_dec : decode 0b0100_0000_00000000_00000000 = .ok .dec := by decide
theorem test_decode_clrb : decode 0b0101_0000_00000000_00000000 = .ok .clrb := by decide
theorem test_decode_push : decode 0b0110_0000_00000000_10101010 = .ok (.push 0xAA) := by decide
theorem test_decode_wrb : decode 0b0111_0000_00000101_11000010 = .ok (.wrb 0x05 0xC2) := by decide
theorem test_decode_rdb : decode 0b1000_0000_00100111_00000000 = .ok (.rdb 0x27) := by decide
theorem test_decode_getl : decode 0b1001_0000_00000000_00000000 = .ok .getl := by decide
theorem test_decode_gets : decode 0b1010_0000_00000000_00000000 = .ok .gets := by decide

/-- The encoder on R56's spellings. -/
theorem test_encode_words :
    [Instr.crcw 0xBE 0xEF, .encf, .enci, .dec, .clrb, .push 0xAA, .wrb 0x05 0xC2, .rdb 0x27, .getl, .gets].map encode =
      [0x10BEEF, 0x200000, 0x300000, 0x400000, 0x500000, 0x6000AA, 0x7005C2, 0x802700, 0x900000, 0xA00000] := by decide

/-- A 24-bit word of the opcode table's numbering, and one longer than any request. -/
theorem test_decodeTableWord :
    decodeTableWord 24 0x7005C2 = some (.wrb 0x05 0xC2) ∧ decodeTableWord 24 0 = none ∧ decodeTableWord 32 0x200000 = none := by
  decide

/-- V9's illegal words, each with the condition of R53 it breaks. -/
theorem test_illegal_words :
    [0x000000, 0xB00000, 0xC00000, 0xD00000, 0xE00000, 0xF00000, 0xFFFFFF].map decode =
      List.replicate 7 (.error .reservedOp) ∧
    [0x110000, 0x7F0000, 0x210000].map decode = List.replicate 3 (.error .reservedField) ∧
    [0x300100, 0x600100, 0x900100].map decode = List.replicate 3 (.error .firstOperand) ∧
    [0x200001, 0x400001, 0x500001, 0x800001, 0xA00001].map decode = List.replicate 5 (.error .secondOperand) := by decide

/-! ### Well-formedness: an ill-formed request for each check, which the check refuses -/

theorem smoke_reservedOp : Fields.check ⟨0xB, 0, 0, 0⟩ = some .reservedOp ∧ Fields.wf ⟨0x0, 0, 0, 0⟩ = false := by decide
theorem smoke_reservedField : Fields.check ⟨0x1, 1, 0xBE, 0xEF⟩ = some .reservedField := by decide
theorem smoke_firstOperand : Fields.check ⟨0x6, 0, 1, 0xAA⟩ = some .firstOperand := by decide
theorem smoke_secondOperand : Fields.check ⟨0x8, 0, 0x27, 1⟩ = some .secondOperand := by decide

/-- An odd number of data bytes, and a received frame that is no multiple of 3 (R57). -/
theorem smoke_pseudo :
    Pseudo.wf (.framef 0x00 0x10 [0x03]) = false ∧ Pseudo.wf (.framei 0x00 0x10 [1, 2, 3]) = false ∧
    Pseudo.wf (.unframe [0xBE, 0xEF]) = false := by decide

/-- The assembler on R56's and R57's spellings. -/
theorem test_assembler :
    assembleLine "CRCW 0xBE, 0xEF ; the check value" = .ok [.crcw 0xBE 0xEF] ∧
    assembleLine "WRB 5, 0b1100_0010" = .ok [.wrb 5 0xC2] ∧
    assembleLine "FRAMEF 0x00, 0x10, 0x03, 0x00" =
      .ok [.clrb, .push 0x00, .push 0x10, .push 0x03, .push 0x00, .push 0x00, .encf] ∧
    assembleLine "FRAMEI 0x80, 0x04, 0x12, 0x34" =
      .ok [.clrb, .push 0x80, .push 0x04, .push 0x12, .push 0x34, .push 0x00, .enci] ∧
    assembleLine "UNFRAME" = .ok [.clrb, .dec] := by decide +kernel

/-- What the assembler refuses, by name. -/
theorem smoke_assembler :
    assembleLine "PUSH 256" = .error .operandRange ∧ assembleLine "PUSH" = .error .operandCount ∧
    assembleLine "PUSH 0xG0" = .error .notANumber ∧ assembleLine "push 1" = .error .unknownMnemonic := by decide +kernel

/-! ### The Checksum Engine -/

/-- V1: iterations 1 and 2 of the first byte, and the accumulators after each byte. -/
theorem test_crc_trace :
    crc8Shift 0x41 = 0x82 ∧ crc8Shift 0x82 = 0x35 ∧ crc8Byte 0xFF 0xBE = 0x0C ∧ crc8Byte 0x0C 0xEF = 0x92 := by decide +kernel

/-- V3, rows 0x to 7x. -/
theorem test_crc_table_low : (List.range 128).map (fun n => crcTable (BitVec.ofNat 8 n)) =
    [0x00, 0x31, 0x62, 0x53, 0xC4, 0xF5, 0xA6, 0x97, 0xB9, 0x88, 0xDB, 0xEA, 0x7D, 0x4C, 0x1F, 0x2E] ++
    [0x43, 0x72, 0x21, 0x10, 0x87, 0xB6, 0xE5, 0xD4, 0xFA, 0xCB, 0x98, 0xA9, 0x3E, 0x0F, 0x5C, 0x6D] ++
    [0x86, 0xB7, 0xE4, 0xD5, 0x42, 0x73, 0x20, 0x11, 0x3F, 0x0E, 0x5D, 0x6C, 0xFB, 0xCA, 0x99, 0xA8] ++
    [0xC5, 0xF4, 0xA7, 0x96, 0x01, 0x30, 0x63, 0x52, 0x7C, 0x4D, 0x1E, 0x2F, 0xB8, 0x89, 0xDA, 0xEB] ++
    [0x3D, 0x0C, 0x5F, 0x6E, 0xF9, 0xC8, 0x9B, 0xAA, 0x84, 0xB5, 0xE6, 0xD7, 0x40, 0x71, 0x22, 0x13] ++
    [0x7E, 0x4F, 0x1C, 0x2D, 0xBA, 0x8B, 0xD8, 0xE9, 0xC7, 0xF6, 0xA5, 0x94, 0x03, 0x32, 0x61, 0x50] ++
    [0xBB, 0x8A, 0xD9, 0xE8, 0x7F, 0x4E, 0x1D, 0x2C, 0x02, 0x33, 0x60, 0x51, 0xC6, 0xF7, 0xA4, 0x95] ++
    [0xF8, 0xC9, 0x9A, 0xAB, 0x3C, 0x0D, 0x5E, 0x6F, 0x41, 0x70, 0x23, 0x12, 0x85, 0xB4, 0xE7, 0xD6] := by decide +kernel

/-- V3, rows 8x to Fx. -/
theorem test_crc_table_high : (List.range 128).map (fun n => crcTable (BitVec.ofNat 8 (128 + n))) =
    [0x7A, 0x4B, 0x18, 0x29, 0xBE, 0x8F, 0xDC, 0xED, 0xC3, 0xF2, 0xA1, 0x90, 0x07, 0x36, 0x65, 0x54] ++
    [0x39, 0x08, 0x5B, 0x6A, 0xFD, 0xCC, 0x9F, 0xAE, 0x80, 0xB1, 0xE2, 0xD3, 0x44, 0x75, 0x26, 0x17] ++
    [0xFC, 0xCD, 0x9E, 0xAF, 0x38, 0x09, 0x5A, 0x6B, 0x45, 0x74, 0x27, 0x16, 0x81, 0xB0, 0xE3, 0xD2] ++
    [0xBF, 0x8E, 0xDD, 0xEC, 0x7B, 0x4A, 0x19, 0x28, 0x06, 0x37, 0x64, 0x55, 0xC2, 0xF3, 0xA0, 0x91] ++
    [0x47, 0x76, 0x25, 0x14, 0x83, 0xB2, 0xE1, 0xD0, 0xFE, 0xCF, 0x9C, 0xAD, 0x3A, 0x0B, 0x58, 0x69] ++
    [0x04, 0x35, 0x66, 0x57, 0xC0, 0xF1, 0xA2, 0x93, 0xBD, 0x8C, 0xDF, 0xEE, 0x79, 0x48, 0x1B, 0x2A] ++
    [0xC1, 0xF0, 0xA3, 0x92, 0x05, 0x34, 0x67, 0x56, 0x78, 0x49, 0x1A, 0x2B, 0xBC, 0x8D, 0xDE, 0xEF] ++
    [0x82, 0xB3, 0xE0, 0xD1, 0x46, 0x77, 0x24, 0x15, 0x3B, 0x0A, 0x59, 0x68, 0xFF, 0xCE, 0x9D, 0xAC] := by decide +kernel

/-- V2: request words and `rdata`. -/
theorem test_crcw_vectors : ([
    (0x10BEEF, 0x92), (0x100000, 0x81), (0x10FFFF, 0xAC), (0x100001, 0xB0), (0x100100, 0x75),
    (0x100080, 0xFB), (0x108000, 0xA2), (0x10FF00, 0x00), (0x1000FF, 0x2D), (0x100300, 0xAC),
    (0x100009, 0x09), (0x103A80, 0xA7), (0x100020, 0x07), (0x100010, 0xC2), (0x101234, 0x37),
    (0x10ABCD, 0x6F), (0x10EFBE, 0xCE), (0x103F80, 0xD0), (0x104142, 0xA3), (0x100202, 0x3A),
    (0x101111, 0x69), (0x1055AA, 0x36), (0x10AA55, 0x1B), (0x107FFF, 0x8F), (0x108080, 0xD8),
    (0x103131, 0x33), (0x10D002, 0x27), (0x1000AC, 0x00), (0x10019D, 0x00), (0x1002CE, 0x00),
    (0x1003FF, 0x00)] : List (Nat × Nat)).all
    (fun v => serving [] v.1 = some ([], 0x00, some (BitVec.ofNat 10 v.2))) = true := by decide +kernel

/-! ### The operations, one step each -/

/-- V4 row 12: three slots. -/
theorem test_encf : serving [0xAA, 0xBB, 0x11, 0x22, 0x00, 0x33, 0x44, 0x00, 0x55, 0x66, 0x00] 0x200000 =
    some ([0xAA, 0xBB, 0x11, 0x22, 0xFF, 0x33, 0x44, 0xE7, 0x55, 0x66, 0x0C], 0x00, some 0x000) := by decide +kernel

/-- V4 row 8: 6 is a multiple of 3 but not `2 + 3k`. -/
theorem test_encf_length : serving [0x11, 0x11, 0x11, 0x11, 0x11, 0x11] 0x200000 =
    some ([0x11, 0x11, 0x11, 0x11, 0x11, 0x11], 0x0A, some 0x200) := by decide +kernel

/-- V4 row 18: the spare bytes are not read. -/
theorem test_enci : serving [0xAA, 0xBB, 0x11, 0x22, 0x33, 0x44, 0x55, 0x66, 0xE1, 0xE2, 0xE3] 0x300000 =
    some ([0xAA, 0xBB, 0x11, 0x22, 0xFF, 0x33, 0x44, 0xE7, 0x55, 0x66, 0x0C], 0x00, some 0x000) := by decide +kernel

/-- V4 row 21: ENCI is not idempotent. -/
theorem test_enci_framed : serving [0x80, 0x04, 0x00, 0x09, 0x09, 0x3A, 0x80, 0xA7] 0x300000 =
    some ([0x80, 0x04, 0x00, 0x09, 0x09, 0x09, 0x3A, 0x5C], 0x00, some 0x000) := by decide +kernel

/-- V5 row 13: three words. -/
theorem test_dec : serving [0xBE, 0xEF, 0x92, 0x12, 0x34, 0x37, 0xAB, 0xCD, 0x6F] 0x400000 =
    some ([0xBE, 0xEF, 0x12, 0x34, 0xAB, 0xCD], 0x00, some 0x000) := by decide +kernel

/-- V5 row 14: a mismatch in the last word only. -/
theorem test_dec_mismatch : serving [0xBE, 0xEF, 0x92, 0x12, 0x34, 0x37, 0xAB, 0xCD, 0x6E] 0x400000 =
    some ([0xBE, 0xEF, 0x92, 0x12, 0x34, 0x37, 0xAB, 0xCD, 0x6E], 0x01, some 0x100) := by decide +kernel

/-- R120. -/
theorem test_clrb : serving [0x00, 0x20, 0x00, 0x10] 0x500000 =
    some ([], 0x00, some 0x000) := by decide +kernel

/-- R121. -/
theorem test_push : serving [0x00, 0x10] 0x600003 =
    some ([0x00, 0x10, 0x03], 0x00, some 0x000) := by decide +kernel

/-- P4 step 12, with a zero byte in the buffer. -/
theorem test_wrb : serving [0x00, 0x20, 0x07, 0x00, 0x10, 0xC3] 0x7005C2 =
    some ([0x00, 0x20, 0x07, 0x00, 0x10, 0xC2], 0x00, some 0x000) := by decide +kernel

/-- R122: `idx = LEN`. -/
theorem test_wrb_index : serving [0xAA, 0x00, 0xFF] 0x70035A =
    some ([0xAA, 0x00, 0xFF], 0x12, some 0x200) := by decide +kernel

/-- V7 row 9: the last valid index. -/
theorem test_rdb : serving [0xAA, 0x00, 0xFF] 0x800200 =
    some ([0xAA, 0x00, 0xFF], 0x00, some 0x0FF) := by decide +kernel

/-- V7 row 15. -/
theorem test_rdb_empty : serving [] 0x800000 =
    some ([], 0x12, some 0x200) := by decide +kernel

/-- V7 row 7. -/
theorem test_getl : serving [0xAA, 0x00, 0xFF] 0x900000 =
    some ([0xAA, 0x00, 0xFF], 0x00, some 0x003) := by decide +kernel

/-- V7 row 2. -/
theorem test_gets : serving [] 0xA00000 =
    some ([], 0x00, some 0x000) := by decide +kernel

/-- V9: ENCF with `rsv = 1`. -/
theorem test_illegal : serving [0x11, 0x03] 0x210000 =
    some ([0x11, 0x03], 0x06, some 0x200) := by decide +kernel

/-- V7, capacity: PUSH on a full buffer. -/
theorem test_push_full : serving (List.replicate 64 0x3F) 0x600040 =
    some (List.replicate 64 0x3F, 0x16, some 0x200) := by decide +kernel

/-- V7, capacity: GETL of a full buffer. -/
theorem test_getl_full : serving (List.replicate 64 0x00) 0x900000 =
    some (List.replicate 64 0x00, 0x00, some 0x040) := by decide +kernel

/-- R120: CLRB does not clear `CKERR`. -/
theorem test_clrb_keeps_ckerr : seen (step (((holding [1]).setCkerr true).withFetchWord 24 0x500000)) =
    some ([], 0x01, some 0x000) := by decide +kernel

/-- P6 step 14: GETS in the faulted state. -/
theorem test_gets_faulted : seen (step ((faultedHolding [1, 2, 3, 4]).withFetchWord 24 0xA00000)) =
    some ([1, 2, 3, 4], 0x0E, some 0x00E) := by decide +kernel

/-- P6 steps 8 to 13: every other request is refused, and `FCAUSE` stays 3. -/
theorem test_refused_when_faulted :
    [0x600005, 0x900000, 0x500000, 0x800000, 0x10BEEF, 0xA00001].all (fun w =>
      seen (step ((faultedHolding [1, 2, 3, 4]).withFetchWord 24 w)) = some ([1, 2, 3, 4], 0x0E, some 0x200)) = true := by
  decide +kernel

/-- P6 step 15: the reset input. -/
theorem test_reset_input : seen (step { faultedHolding [1, 2, 3, 4] with pending := [.rst] }) = some ([], 0x00, none) := by
  decide +kernel

/-- V8: the literal insertion for `k = 2`, after the first insertion and at the end. -/
theorem test_literal_insertion :
    insertSlot [0x80, 0x04, 0x00, 0x09, 0x3A, 0x80, 0xEE, 0xEE] 4 = [0x80, 0x04, 0x00, 0x09, 0x09, 0x3A, 0x80, 0xEE] ∧
    encInPlace [0x80, 0x04, 0x00, 0x09, 0x3A, 0x80, 0xEE, 0xEE] = [0x80, 0x04, 0x00, 0x09, 0x09, 0x3A, 0x80, 0xA7] := by
  decide +kernel

/-- R57: a pseudo-instruction stops at the first response that is not OK (V9's run: UNFRAME of three zero bytes). -/
theorem test_unframe_bad : seen ((Pseudo.unframe [0x00, 0x00, 0x00]).run State.reset) =
    some ([0x00, 0x00, 0x00], 0x01, some 0x100) := by decide +kernel

/-! ### Witnesses: for each obligation with hypotheses, states and operands that meet them, clause by clause and at the
boundaries -/

/-- A state of bytes the buffer can hold meets the invariant. -/
theorem holding_inv (bs : List Byte) (h : bs.length ≤ 64) : (holding bs).Inv where
  len_le := by simpa [holding, Config.bufSize, Nat.mod_eq_of_lt (show bs.length < 256 by omega)] using h
  buf_wf := Memory.ofBytes_wf bs
  buf_below := by simpa [holding, Nat.mod_eq_of_lt (show bs.length < 256 by omega)] using Memory.ofBytes_below bs
  no_cause := fun _ => rfl
  cause_pos := nofun
  cause_le := by rw [show (holding bs).fcause = 0 from rfl]; decide

theorem faultedHolding_inv : (faultedHolding [1, 2, 3, 4]).Inv :=
  ⟨by decide, by decide, by decide, by decide, by decide, by decide⟩

/-- The hypothesis of `RefusedWhenFaulted`, of all instructions. -/
theorem witness_refused : (faultedHolding [1, 2, 3, 4]).fault = true := rfl

/-- The hypotheses of `MalformedFaults`, one word for each operation, and both states. -/
theorem witness_malformed :
    ((0x110000 : ReqWord).extractLsb' 20 4 = 0x1 ∧ ¬ (0x110000 : ReqWord).extractLsb' 16 4 = 0) ∧
    ((0x210000 : ReqWord).extractLsb' 20 4 = 0x2 ∧ ¬ (0x210000 : ReqWord) = 0x200000) ∧
    ((0x300100 : ReqWord).extractLsb' 20 4 = 0x3 ∧ ¬ (0x300100 : ReqWord) = 0x300000) ∧
    ((0x400001 : ReqWord).extractLsb' 20 4 = 0x4 ∧ ¬ (0x400001 : ReqWord) = 0x400000) ∧
    ((0x500001 : ReqWord).extractLsb' 20 4 = 0x5 ∧ ¬ (0x500001 : ReqWord) = 0x500000) ∧
    ((0x600100 : ReqWord).extractLsb' 20 4 = 0x6 ∧
      ¬ ((0x600100 : ReqWord).extractLsb' 16 4 = 0 ∧ (0x600100 : ReqWord).extractLsb' 8 8 = 0)) ∧
    ((0x7F0000 : ReqWord).extractLsb' 20 4 = 0x7 ∧ ¬ (0x7F0000 : ReqWord).extractLsb' 16 4 = 0) ∧
    ((0x800001 : ReqWord).extractLsb' 20 4 = 0x8 ∧
      ¬ ((0x800001 : ReqWord).extractLsb' 16 4 = 0 ∧ (0x800001 : ReqWord).extractLsb' 0 8 = 0)) ∧
    ((0x900100 : ReqWord).extractLsb' 20 4 = 0x9 ∧ ¬ (0x900100 : ReqWord) = 0x900000) ∧
    ((0xA00001 : ReqWord).extractLsb' 20 4 = 0xA ∧ ¬ (0xA00001 : ReqWord) = 0xA00000) ∧
    State.reset.fault = false ∧ (faultedHolding []).fault = true := by decide

/-- CrcwAnswersTheChecksum, ClrbEmptiesTheBuffer, GetlAnswersTheLength: only the faulted state is excluded. -/
theorem witness_not_faulted : State.reset.fault = false ∧ (holding [0xBE, 0xEF, 0x92]).fault = false := by decide

/-- EncfFillsTheSlots and EnciInsertsTheChecksums: lengths 0 and 2; 3 and 4; 5 and 62, with the first and last slot and
indices that are none. -/
theorem witness_encode :
    ((holding []).fault = false ∧ (holding []).len.toNat ≤ 2 ∧ (holding [0x11, 0x03]).len.toNat ≤ 2) ∧
    (∀ bs ∈ [[0x11, 0x11, 0x11], [0x11, 0x11, 0x11, 0x11]], (holding bs).fault = false ∧ 2 < (holding bs).len.toNat ∧
      ((holding bs).len.toNat - 2) % 3 ≠ 0) ∧
    (∀ bs ∈ [List.replicate 5 0x41, List.replicate 62 0x41], (holding bs).fault = false ∧ 2 < (holding bs).len.toNat ∧
      ((holding bs).len.toNat - 2) % 3 = 0) ∧
    4 + 3 * 0 < (holding (List.replicate 5 0x41)).len.toNat ∧ 4 + 3 * 19 < (holding (List.replicate 62 0x41)).len.toNat := by
  decide +kernel

/-- The frame clauses of the same two: an index that is no slot below, and one at or above, the length; index 1 of ENCI. -/
theorem witness_encode_frame :
    (¬ ∃ j, 3 = 4 + 3 * j ∧ 3 < (holding (List.replicate 5 0x41)).len.toNat) ∧
    (¬ ∃ j, 7 = 4 + 3 * j ∧ 7 < (holding (List.replicate 5 0x41)).len.toNat) ∧
    (1 < 2 ∨ (holding (List.replicate 5 0x41)).len.toNat ≤ 1) := by
  refine ⟨?_, ?_, .inl (by decide)⟩ <;> rintro ⟨j, hj, hl⟩
  · omega
  · exact absurd hl (by decide +kernel)

/-- BothReadingsGiveTheSameFrame, for one word and for none. -/
theorem witness_readings :
    ([0x03, 0x00] : List Byte).length = 2 * ([0x55] : List Byte).length ∧
    ([0xEE] : List Byte).length = ([0x55] : List Byte).length ∧
    ([] : List Byte).length = 2 * ([] : List Byte).length := by decide

/-- LiteralInsertionEqualsEncI and EncWritesExactlyTheSlots: both sides of the disjunction, a slot and an index that is none. -/
theorem witness_admitted :
    (([0x11] : List Byte).length ≤ 2) ∧ ((List.replicate 8 0x11 : List Byte).length - 2) % 3 = 0 ∧
    4 + 3 * 1 < (List.replicate 8 0x11 : List Byte).length ∧ ¬ ∃ j, 6 = 4 + 3 * j := by
  refine ⟨by decide, by decide, by decide, ?_⟩
  rintro ⟨j, hj⟩
  omega

/-- Two buffers that differ in a slot, and two that differ in a spare byte, for PlaceholderBytesDoNotMatter. -/
theorem witness_placeholders :
    (holding [0x00, 0x10, 0x03, 0x00, 0x55]).fault = false ∧ (holding [0x00, 0x10, 0x03, 0x00, 0xAA]).fault = false ∧
    (holding [0x00, 0x10, 0x03, 0x00, 0x55]).len = (holding [0x00, 0x10, 0x03, 0x00, 0xAA]).len ∧
    2 < (holding [0x00, 0x10, 0x03, 0x00, 0x55]).len.toNat ∧ ((holding [0x00, 0x10, 0x03, 0x00, 0x55]).len.toNat - 2) % 3 = 0 ∧
    (∀ a, (¬ ∃ j, a = 4 + 3 * j) →
      (holding [0x00, 0x10, 0x03, 0x00, 0x55]).byte? a = (holding [0x00, 0x10, 0x03, 0x00, 0xAA]).byte? a) ∧
    (∀ a, a < 2 + 2 * (((holding [0x00, 0x10, 0x03, 0x00, 0x55]).len.toNat - 2) / 3) →
      (holding [0x00, 0x10, 0x03, 0x00, 0x55]).byte? a = (holding [0x00, 0x10, 0x03, 0x00, 0xAA]).byte? a) ∧
    (∃ t, exec .encf (holding [0x00, 0x10, 0x03, 0x00, 0x55]) = .next t) ∧
    (∃ t, exec .encf (holding [0x00, 0x10, 0x03, 0x00, 0xAA]) = .next t) ∧
    (∃ t, exec .enci (holding [0x00, 0x10, 0x03, 0x00, 0x55]) = .next t) ∧
    (∃ t, exec .enci (holding [0x00, 0x10, 0x03, 0x00, 0xAA]) = .next t) := by
  have below : ∀ a, a < 4 →
      (holding [0x00, 0x10, 0x03, 0x00, 0x55]).byte? a = (holding [0x00, 0x10, 0x03, 0x00, 0xAA]).byte? a := by
    decide +kernel
  refine ⟨rfl, rfl, rfl, by decide, by decide, fun a ha => ?_, fun a ha => below a ha, ⟨_, rfl⟩, ⟨_, rfl⟩, ⟨_, rfl⟩, ⟨_, rfl⟩⟩
  rcases Nat.lt_trichotomy a 4 with h | h | h
  · exact below a h
  · exact absurd ⟨0, h⟩ ha
  · rw [State.byte?_of_le _ (show (5 : Nat) ≤ a by omega), State.byte?_of_le _ (show (5 : Nat) ≤ a by omega)]

/-- DecValidatesThenStrips: a length fault at 1 and 4; a mismatch in the last word; a match of none, one and 21 words. -/
theorem witness_dec :
    (∀ bs ∈ [[0xBE], [0xBE, 0xEF, 0x92, 0x00]], (holding bs).fault = false ∧ (holding bs).len.toNat % 3 ≠ 0) ∧
    (∀ bs ∈ [[0xBE, 0xEF, 0x92, 0x00, 0x00, 0x00]], (holding bs).fault = false ∧ (holding bs).len.toNat % 3 = 0 ∧
      ∃ j < (holding bs).len.toNat / 3, Mismatch (holding bs) j) ∧
    (∀ bs ∈ [[], [0xBE, 0xEF, 0x92], (List.replicate 21 [0xBE, 0xEF, 0x92]).flatten], (holding bs).fault = false ∧
      (holding bs).len.toNat % 3 = 0 ∧ ∀ j < (holding bs).len.toNat / 3, ¬ Mismatch (holding bs) j) ∧
    0 < (holding [0xBE, 0xEF, 0x92]).len.toNat / 3 := by decide +kernel

/-- DecodeIsAllOrNothing, InPlaceCompactionKeepsLaterWords and EncodeThenDecodeReturnsTheData: lengths, and the last word and
byte. -/
theorem witness_lengths :
    ([] : List Byte).length = 3 * 0 ∧ ([0xBE, 0xEF, 0x92, 0x00, 0x00, 0x81] : List Byte).length = 3 * 2 ∧ 1 < 2 ∧ 2 < 3 ∧
    ([0x12, 0x34] : List Byte).length = 2 * 1 ∧ ([0x80, 0x04, 0x12, 0x34, 0x37] : List Byte).length = 2 + 3 * 1 := by decide

/-- TamperedFramesAreRejected: a valid frame and its last word; error patterns on each byte alone and of three bits. -/
theorem witness_tampered :
    (List.length [0xBE, 0xEF, 0x92, 0x00, 0x00, 0x81] = 3 * 2 ∧ 1 < 2 ∧
      dec [0xBE, 0xEF, 0x92, 0x00, 0x00, 0x81] = .ok [0xBE, 0xEF, 0x00, 0x00]) ∧
    ((0 : Byte) = 0 ∧ (1 : Byte) ≠ 0) ∧ (1 ≤ ones 0x01 + ones 0x80 + ones 0x10 ∧ ones 0x01 + ones 0x80 + ones 0x10 ≤ 3) ∧
    crcError 0x00 0x01 = 0x31 := by decide +kernel

/-- PushAppendsOneByte: an empty buffer, one with room for one byte, and a full one. -/
theorem witness_push :
    (State.Inv (holding []) ∧ (holding []).fault = false ∧ (holding []).len.toNat ≠ 64) ∧
    (State.Inv (holding (List.replicate 63 0xAA)) ∧ (holding (List.replicate 63 0xAA)).fault = false ∧
      (holding (List.replicate 63 0xAA)).len.toNat ≠ 64) ∧
    (holding (List.replicate 64 0xAA)).fault = false ∧ (holding (List.replicate 64 0xAA)).len.toNat = 64 :=
  ⟨⟨holding_inv _ (by decide), by decide, by decide⟩, ⟨holding_inv _ (by decide), rfl, by decide⟩, rfl, by decide⟩

/-- WrbOverwritesOneByte, RdbAnswersTheByte, ReadAfterWrite and ReadsAreSilentAndWritesIdempotent: the last index that exists, the
first that does not, and two indices of which one is written. -/
theorem witness_index :
    State.Inv (holding [0xAA, 0x00, 0xFF]) ∧ (holding [0xAA, 0x00, 0xFF]).fault = false ∧
    (2 : Byte).toNat < (holding [0xAA, 0x00, 0xFF]).len.toNat ∧ (holding [0xAA, 0x00, 0xFF]).len.toNat ≤ (3 : Byte).toNat ∧
    (0 : Byte).toNat < (holding [0xAA, 0x00, 0xFF]).len.toNat ∧ (holding []).len.toNat ≤ (0 : Byte).toNat ∧
    ∃ t, exec (.wrb 2 0x5A) (holding [0xAA, 0x00, 0xFF]) = .next t :=
  ⟨holding_inv _ (by decide), rfl, by decide, by decide, by decide, by decide, _, rfl⟩

/-- ReadsAreSilentAndWritesIdempotent: each kind of instruction, its first run and its second. -/
theorem witness_repeats :
    (∃ t, exec (.crcw 0xBE 0xEF) (holding [0xAA]) = .next t) ∧ (∃ t, exec (.rdb 0) (holding [0xAA]) = .next t) ∧
    (∃ t, exec .getl (holding [0xAA]) = .next t) ∧ (∃ t, exec .gets (faultedHolding [0xAA]) = .next t) ∧
    (∃ t u, exec .encf (holding [0x00, 0x10, 0x03, 0x00, 0x55]) = .next t ∧ exec .encf t = .next u) ∧
    (∃ t u, exec .clrb (holding [0xAA]) = .next t ∧ exec .clrb t = .next u) ∧
    (∃ t u, exec (.wrb 0 0x5A) (holding [0xAA]) = .next t ∧ exec (.wrb 0 0x5A) t = .next u) :=
  ⟨⟨_, rfl⟩, ⟨_, rfl⟩, ⟨_, rfl⟩, ⟨_, rfl⟩, ⟨_, _, rfl, rfl⟩, ⟨_, _, rfl, rfl⟩, ⟨_, _, rfl, rfl⟩⟩

/-- DecodeAndEncodeAgree and StepRunsTheDecodedRequest: a word that decodes, the next move a request, and none. -/
theorem witness_decode :
    decode 0x7005C2 = .ok (.wrb 0x05 0xC2) ∧
    (issuing State.reset 0x7005C2).pending = .request 0x7005C2 :: [] ∧ State.reset.pending = [] := by decide

/-- IllegalRequestsFault: one word for each condition of R53. -/
theorem witness_illegal :
    IllegalWord 0x000000 ∧ IllegalWord 0xB00000 ∧ IllegalWord 0xFFFFFF ∧ IllegalWord 0x110000 ∧ IllegalWord 0x600100 ∧
    IllegalWord 0x800001 ∧ ¬ IllegalWord 0xA00000 ∧ State.reset.fault = false ∧ (faultedHolding []).fault = true :=
  ⟨by decide, by decide, by decide, by decide, by decide, by decide, by decide, rfl, rfl⟩

/-- FaultEntryChangesNothingElse and AFaultedRunStaysWrong: a request that raises a fault. -/
theorem witness_fault_entry :
    ∃ t, State.reset.fault = false ∧ step (issuing State.reset 0x800000) = .next t ∧ t.fault = true :=
  ⟨_, rfl, rfl, rfl⟩

/-- FaultedStateIsFrozen and OnlyResetClearsTheFault: both ends of the disjunction have a step. -/
theorem witness_faulted :
    (faultedHolding [1, 2, 3, 4]).fault = true ∧ (∃ t, step (issuing (faultedHolding [1, 2, 3, 4]) 0x500000) = .next t) ∧
    ∃ t, step { faultedHolding [1, 2, 3, 4] with pending := [.rst] } = .next t ∧ t.fault = false :=
  ⟨rfl, ⟨_, rfl⟩, _, rfl, rfl⟩

/-- AFaultedRunStaysWrong: a run that has gone wrong, and goes on. -/
theorem witness_gone_wrong :
    ∃ t, State.GoneWrong (answering State.reset .fault 0x00) ∧ run 1 (issuing (answering State.reset .fault 0x00) 0xA00000) = .next t :=
  ⟨_, ⟨⟨.fault, 0x00⟩, by decide, rfl⟩, rfl⟩

/-- The next state of an outcome, where there is one. -/
def nextOf : Host.Outcome State Fault Refusal → Option State
  | .next s => some s
  | _ => none

theorem next_of_some {o : Host.Outcome State Fault Refusal} {P : State → Prop} [DecidablePred P]
    (h : (nextOf o).any (fun t => decide (P t)) = true) : ∃ t, o = .next t ∧ P t := by
  cases o with
  | next s => exact ⟨s, rfl, of_decide_eq_true h⟩
  | fault r => cases r
  | refused r => simp [nextOf] at h

/-- OnlyDecWritesCkerr: DEC in each of its three outcomes, and another request. -/
theorem witness_ckerr :
    (∃ t, step (issuing (holding [0xBE, 0xEF, 0x92]) 0x400000) = .next t ∧ t.responses = [] ++ [⟨.ok, 0x00⟩]) ∧
    (∃ t, step (issuing (holding [0xBE, 0xEF, 0x93]) 0x400000) = .next t ∧ t.responses = [] ++ [⟨.ckerr, 0x00⟩]) ∧
    (∃ t, step (issuing (holding [0xBE]) 0x400000) = .next t ∧ t.responses = [] ++ [⟨.fault, 0x00⟩]) ∧
    (∃ t, step (issuing (holding [0xBE]) 0x500000) = .next t ∧ t.responses = [] ++ [⟨.ok, 0x00⟩]) := by
  refine ⟨?_, ?_, ?_, ?_⟩ <;> exact next_of_some (by decide +kernel)

/-- LengthWriters, StatusViewFields and StepKeepsTheInvariant: a state with the invariant, faulted or not, and its step. -/
theorem witness_invariant :
    State.Inv (holding (List.replicate 64 0x11)) ∧ State.Inv (faultedHolding [1, 2, 3, 4]) ∧
    ∃ t, step (issuing (holding (List.replicate 64 0x11)) 0x600040) = .next t :=
  ⟨holding_inv _ (by decide), faultedHolding_inv, _, rfl⟩

/-- ResetInputClearsEverything: the reset input as the next move, from the faulted state. -/
theorem witness_reset_input :
    ({ faultedHolding [1, 2, 3, 4] with pending := [.rst, .request 0xA00000] } : State).pending = .rst :: [.request 0xA00000] :=
  rfl

/-- LoadbMakesTheBuffer, FramefAndFrameiAgree, UnframeReturnsTheData, PseudoStopsAtTheFirstFailure: the largest operands and, for
the last, the smallest that overflows. -/
theorem witness_pseudo :
    (List.replicate 64 0xAA : List Byte).length ≤ 64 ∧
    ((List.replicate 40 0xAA : List Byte).length = 2 * 20 ∧ 2 + 3 * 20 ≤ 64) ∧
    ((List.replicate 42 0xAA : List Byte).length = 2 * 21 ∧ 3 * 21 ≤ 64) ∧
    64 < (List.replicate 65 0xAA : List Byte).length ∧ State.reset.fault = false := by decide

end Sys2Proof.Tests
end

/-! ### Request words: the encoder undone, field by field and as a whole (R50 to R52, R56) -/

namespace Sys2Proof

/-- The layout of R50 loses no field: each is read back by dropping the fields below it. -/
@[simp] theorem fieldsOf_wordOf (f : Fields) : fieldsOf (wordOf f) = f := by
  obtain ⟨op, rsv, a, b⟩ := f
  have hop : (op ++ rsv ++ a ++ b).extractLsb' 20 4 = op := by
    rw [BitVec.extractLsb'_append_eq_of_le (by decide), BitVec.extractLsb'_append_eq_of_le (by decide)]
    exact BitVec.extractLsb'_append_eq_left
  have hrsv : (op ++ rsv ++ a ++ b).extractLsb' 16 4 = rsv := by
    rw [BitVec.extractLsb'_append_eq_of_le (by decide), BitVec.extractLsb'_append_eq_of_le (by decide)]
    exact BitVec.extractLsb'_append_eq_right
  have ha : (op ++ rsv ++ a ++ b).extractLsb' 8 8 = a := by
    rw [BitVec.extractLsb'_append_eq_of_le (by decide)]
    exact BitVec.extractLsb'_append_eq_right
  have hb : (op ++ rsv ++ a ++ b).extractLsb' 0 8 = b := BitVec.extractLsb'_append_eq_right
  simp only [fieldsOf, wordOf, hop, hrsv, ha, hb]

/-- The family `WordLegal`, put together for every instruction. -/
theorem wordLegal (i : Instr) : Laws.WordLegal.Statement i := by
  cases i with
  | crcw b0 b1 => exact Laws.WordLegal.crcw b0 b1
  | encf => exact Laws.WordLegal.encf
  | enci => exact Laws.WordLegal.enci
  | dec => exact Laws.WordLegal.dec
  | clrb => exact Laws.WordLegal.clrb
  | push val => exact Laws.WordLegal.push val
  | wrb idx val => exact Laws.WordLegal.wrb idx val
  | rdb idx => exact Laws.WordLegal.rdb idx
  | getl => exact Laws.WordLegal.getl
  | gets => exact Laws.WordLegal.gets

/-- The decoder undoes the encoder. -/
@[simp] theorem decode_encode (i : Instr) : decode (encode i) = .ok i := by
  obtain ⟨-, hi⟩ := wordLegal i
  rw [decode, encode, fieldsOf_wordOf, hi]

/-- A request word is the whole 24-bit word of its number. -/
@[simp] theorem tableWord_toNat (w : ReqWord) : tableWord 24 w.toNat = w := by
  rw [tableWord, Nat.mod_eq_of_lt w.isLt, BitVec.ofNat_toNat, BitVec.setWidth_eq]

end Sys2Proof

/-! ### A step by the host's next move (R8, R36) -/

namespace Sys2Proof.Machine

variable {s : State}

/-- With no move waiting the step is idle. -/
theorem step_of_pending_nil (h : s.pending = []) : step s = .next s := by
  rw [step, takeEvent_none.mpr h, idle]

/-- A waiting move is taken from the port and served. -/
theorem step_of_pending_cons {e : HostEvent} {rest : List HostEvent} (h : s.pending = e :: rest) :
    step s = serveEvent e { s with pending := rest } := by
  rw [step, takeEvent_cons h]

/-- A waiting request that decodes runs its operation. -/
theorem step_of_decode_ok {w : ReqWord} {rest : List HostEvent} {i : Instr}
    (h : s.pending = .request w :: rest) (hd : decode w = .ok i) : step s = exec i { s with pending := rest } := by
  rw [step_of_pending_cons h, serveEvent, serveRequest, hd]

/-- The word of an instruction, placed before the host's moves, runs that instruction and leaves those moves waiting. -/
theorem step_withFetchWord_encode (s : State) (i : Instr) :
    step (s.withFetchWord 24 (encode i).toNat) = exec i s := by
  have hp : (s.withFetchWord 24 (encode i).toNat).pending = .request (encode i) :: s.pending := by
    rw [State.withFetchWord, tableWord_toNat]
  exact step_of_decode_ok hp (decode_encode i)

/-- Settles O41: the next move is taken from the port, and a legal request is dispatched to `exec`; the decoder undoes the
encoder, so a word placed by `withFetchWord` runs the instruction it was encoded from. -/
theorem stepRunsTheDecodedRequest : Obligations.StepRunsTheDecodedRequest :=
  ⟨fun _ _ _ _ hp hd => step_of_decode_ok hp hd, step_withFetchWord_encode, fun _ h => step_of_pending_nil h⟩

end Sys2Proof.Machine

/-! ### The invariant (R21): which of its parts each change of the state touches -/

namespace Sys2Proof.Machine

variable {s t : State}

/-- The invariant reads `BUF`, `LEN`, `FAULT` and `FCAUSE` only. -/
theorem State.Inv.congr (hs : s.Inv) (hb : t.buf = s.buf) (hl : t.len = s.len) (hf : t.fault = s.fault)
    (hc : t.fcause = s.fcause) : t.Inv where
  len_le := hl ▸ hs.len_le
  buf_wf := hb ▸ hs.buf_wf
  buf_below := by rw [hb, hl]; exact hs.buf_below
  no_cause := by rw [hf, hc]; exact hs.no_cause
  cause_pos := by rw [hf, hc]; exact hs.cause_pos
  cause_le := hc ▸ hs.cause_le

theorem State.Inv.answer (hs : s.Inv) (res : Res) (rdata : Byte) : (s.answer res rdata).Inv := hs.congr rfl rfl rfl rfl

theorem State.Inv.setCkerr (hs : s.Inv) (v : Bool) : (s.setCkerr v).Inv := hs.congr rfl rfl rfl rfl

theorem State.Inv.setPending (hs : s.Inv) (es : List HostEvent) : State.Inv { s with pending := es } :=
  hs.congr rfl rfl rfl rfl

/-- A fault writes `FAULT` and a code of R163 together, so the two stay in step. -/
theorem State.Inv.faulted (hs : s.Inv) (c : Cause) : (s.faulted c).Inv where
  len_le := hs.len_le
  buf_wf := hs.buf_wf
  buf_below := hs.buf_below
  no_cause := nofun
  cause_pos _ := c.code_bounds.1
  cause_le := c.code_bounds.2

/-- A new buffer is all there is to check where the flags stay. -/
theorem State.Inv.setBuffer (hs : s.Inv) {m : Memory} {n : BitVec 8} (hn : n.toNat ≤ Config.bufSize) (hm : m.wf)
    (hlt : ∀ c ∈ m, c.1 < n.toNat) : State.Inv { s with buf := m, len := n } where
  len_le := hn
  buf_wf := hm
  buf_below := hlt
  no_cause := hs.no_cause
  cause_pos := hs.cause_pos
  cause_le := hs.cause_le

theorem State.Inv.clear (hs : s.Inv) : s.clear.Inv := hs.setBuffer (Nat.zero_le _) Memory.nil_wf (by simp)

theorem State.Inv.overwrite (hs : s.Inv) {bs : List Byte} (h : bs.length = s.len.toNat) : (s.overwrite bs).Inv :=
  hs.setBuffer hs.len_le (Memory.ofBytes_wf bs) (h ▸ Memory.ofBytes_below bs)

/-- `LEN` counts any number of bytes the buffer can hold. -/
theorem toNat_ofNat_of_le_bufSize {n : Nat} (h : n ≤ Config.bufSize) : (BitVec.ofNat 8 n).toNat = n := by
  rw [BitVec.toNat_ofNat, Nat.mod_eq_of_lt (Nat.lt_of_le_of_lt h (by decide))]

theorem State.Inv.load (hs : s.Inv) {bs : List Byte} (h : bs.length ≤ Config.bufSize) : (s.load bs).Inv := by
  have hl := toNat_ofNat_of_le_bufSize h
  exact hs.setBuffer (by rwa [hl]) (Memory.ofBytes_wf bs) (by rw [hl]; exact Memory.ofBytes_below bs)

/-- Below the buffer's capacity `LEN + 1` does not wrap. -/
theorem State.append_len_toNat (hs : s.Inv) (h : s.len.toNat ≠ Config.bufSize) (val : Byte) :
    (s.append val).len.toNat = s.len.toNat + 1 := by
  have hlt : s.len.toNat < Config.bufSize := Nat.lt_of_le_of_ne hs.len_le h
  exact BitVec.toNat_add_of_lt (Nat.lt_of_le_of_lt (Nat.succ_le_of_lt hlt) (by decide))

theorem State.Inv.append (hs : s.Inv) (h : s.len.toNat ≠ Config.bufSize) (val : Byte) : (s.append val).Inv := by
  have hl := State.append_len_toNat hs h val
  refine hs.setBuffer ?_ (Memory.write_wf _ _ hs.buf_wf) ?_
  · exact hl ▸ Nat.lt_of_le_of_ne hs.len_le h
  · exact Memory.write_below (by rw [← State.append_len s val]; omega) fun c hc => by
      have := hs.buf_below c hc
      rw [← State.append_len s val]; omega

theorem State.Inv.store (hs : s.Inv) {i : Nat} (h : i < s.len.toNat) (val : Byte) : (s.store i val).Inv :=
  hs.setBuffer hs.len_le (Memory.write_wf _ _ hs.buf_wf) (Memory.write_below h hs.buf_below)

/-! ### The invariant along instructions and steps -/

/-- Decoding does not lengthen the buffer. -/
theorem State.Inv.dataBytes_length_le (hs : s.Inv) : (dataBytes s.bytes).length ≤ Config.bufSize :=
  calc (dataBytes s.bytes).length ≤ s.bytes.length := Sys2Proof.Machine.dataBytes_length_le s.bytes
    _ = s.len.toNat := State.bytes_length s
    _ ≤ Config.bufSize := hs.len_le

theorem Completes.inv {i : Instr} {u : State} {v : Byte} (h : Completes i s u v) (hs : s.Inv) : u.Inv := by
  cases h with
  | crcw | encPass | rdb | getl | gets => exact hs
  | encf => exact hs.overwrite (by simp)
  | enci _ h2 h3 => exact hs.overwrite (by simp [encI_length (s := s.bytes) (by simp [h3])])
  | dec => exact (hs.load hs.dataBytes_length_le).setCkerr false
  | clrb => exact hs.clear
  | push _ val h => exact hs.append h val
  | wrb _ idx val h => exact hs.store h val

theorem exec_inv {i : Instr} (hs : s.Inv) (h : exec i s = .next t) : t.Inv := by
  rcases exec_cases h with ⟨-, -, rfl⟩ | ⟨-, c, -, rfl⟩ | ⟨-, -, -, -, rfl⟩ | ⟨-, u, v, hu, rfl⟩
  · exact hs.answer .fault 0x00
  · exact (hs.faulted c).answer .fault 0x00
  · exact (hs.setCkerr true).answer .ckerr 0x00
  · exact (hu.inv hs).answer .ok v

theorem illegalRequest_inv (hs : s.Inv) (h : illegalRequest s = .next t) : t.Inv := by
  rcases illegalRequest_next.mp h with ⟨-, rfl⟩ | ⟨-, rfl⟩
  · exact hs.answer .fault 0x00
  · exact (hs.faulted .illegalRequest).answer .fault 0x00

/-- The invariant holds in the reset state, whatever the ports' streams. -/
theorem reset_inv (es : List HostEvent) (rs : List Response) :
    State.Inv { State.reset with pending := es, responses := rs } where
  len_le := Nat.zero_le _
  buf_wf := State.reset_buf_wf
  buf_below := by simp [State.reset]
  no_cause _ := rfl
  cause_pos := nofun
  cause_le := Nat.zero_le _

theorem step_inv (hs : s.Inv) (h : step s = .next t) : t.Inv := by
  rcases step_cases h with ⟨-, rfl⟩ | ⟨rest, -, rfl⟩ | ⟨w, rest, i, -, -, hi⟩ | ⟨w, rest, e, -, -, he⟩
  · exact hs
  · exact reset_inv rest s.responses
  · exact exec_inv (hs.setPending rest) hi
  · exact illegalRequest_inv (hs.setPending rest) he

/-- Settles O40: a step idles, resets, or serves one request, and each of the three keeps the invariant. -/
theorem stepKeepsTheInvariant : Obligations.StepKeepsTheInvariant := fun _ _ => step_inv

/-- Settles O39: the invariant at reset, with no response recorded yet. -/
theorem invariantHoldsAtReset : Obligations.InvariantHoldsAtReset := fun es => reset_inv es []

/-! ### `STATUS` (R15) -/

/-- `STATUS` as its fields stand in the byte, bits 7:5 zero first. -/
theorem State.status_eq_append (s : State) :
    s.status = 0#3 ++ s.fcause ++ BitVec.ofBool s.fault ++ BitVec.ofBool s.ckerr := by
  rw [State.status]
  generalize s.fcause = c
  cases s.fault <;> cases s.ckerr <;> revert c <;> decide

/-- The two values of `STATUS` for each cause code, the flag `CKERR` being bit 0. -/
theorem State.Inv.status_mem (hs : s.Inv) :
    s.status ∈ [0x00, 0x01, 0x06, 0x07, 0x0A, 0x0B, 0x0E, 0x0F, 0x12, 0x13, 0x16, 0x17] := by
  rw [State.status_eq_append]
  have hle := hs.cause_le
  cases hf : s.fault with
  | false => rw [hs.no_cause hf]; cases s.ckerr <;> decide
  | true =>
    have hpos := hs.cause_pos hf
    generalize s.fcause = c at hle hpos
    cases s.ckerr <;> revert c <;> decide

/-- Settles O37: `STATUS` is the concatenation of its fields, and the invariant leaves six pairs of `FAULT` and `FCAUSE`. -/
theorem statusViewFields : Obligations.StatusViewFields := by
  refine ⟨fun s => ?_, fun _ => State.Inv.status_mem⟩
  rw [State.status_eq_append]
  refine ⟨?_, ?_, ?_, ?_⟩
  · exact (BitVec.getLsbD_append ..).trans (by simp)
  · exact (BitVec.getLsbD_append ..).trans ((BitVec.getLsbD_append ..).trans (by simp))
  · rw [BitVec.extractLsb'_append_eq_of_le (by decide), BitVec.extractLsb'_append_eq_of_le (by decide)]
    exact BitVec.extractLsb'_append_eq_right
  · rw [BitVec.extractLsb'_append_eq_of_le (by decide), BitVec.extractLsb'_append_eq_of_le (by decide)]
    exact BitVec.extractLsb'_append_eq_left

/-! ### Reset (R20, R180, R181) -/

/-- The reset input is served as one step, with no response. -/
theorem step_of_pending_rst {rest : List HostEvent} (h : s.pending = .rst :: rest) :
    step s = .next { State.reset with pending := rest, responses := s.responses } :=
  step_of_pending_cons h

/-- GETS answers `STATUS` in every state (R125). -/
theorem exec_gets (s : State) : exec .gets s = .next (s.answer .ok s.status) :=
  (Completes.gets s).exec_eq (.inr rfl)

theorem reset_status (es : List HostEvent) (rs : List Response) :
    State.status { State.reset with pending := es, responses := rs } = 0x00 :=
  show State.reset.status = 0x00 by decide

/-- Settles O38: the reset state, the step that brings it about, and the three reads that see it. -/
theorem resetInputClearsEverything : Obligations.ResetInputClearsEverything :=
  ⟨by decide, fun _ _ => step_of_pending_rst, fun es rs =>
    ⟨reset_status es rs ▸ exec_gets _, rfl, rfl⟩⟩

end Sys2Proof.Machine

/-! ### Request words: which are legal, and the decoder undone (R50 to R53) -/

namespace Sys2Proof

/-- The layout of R50 loses no bit of the word. -/
@[simp] theorem wordOf_fieldsOf (w : ReqWord) : wordOf (fieldsOf w) = w := by
  simp only [wordOf, fieldsOf]
  rw [BitVec.extractLsb'_append_extractLsb'_eq_extractLsb' (show 20 = 16 + 4 from rfl),
    BitVec.extractLsb'_append_extractLsb'_eq_extractLsb' (show 16 = 8 + 8 from rfl),
    BitVec.extractLsb'_append_extractLsb'_eq_extractLsb' (show 8 = 0 + 8 from rfl)]
  exact BitVec.extractLsb'_eq_self

theorem opcode_cases (op : BitVec 4) :
    op = 0x0 ∨ op = 0x1 ∨ op = 0x2 ∨ op = 0x3 ∨ op = 0x4 ∨ op = 0x5 ∨ op = 0x6 ∨ op = 0x7 ∨
    op = 0x8 ∨ op = 0x9 ∨ op = 0xA ∨ op = 0xB ∨ op = 0xC ∨ op = 0xD ∨ op = 0xE ∨ op = 0xF := by
  revert op; decide

/-- A request is legal when its operation code has a format and the fields that must be 0 are 0 (R51, R53). -/
theorem Fields.check_eq_none_iff {f : Fields} :
    f.check = none ↔ ∃ fmt, formatOf f.op = some fmt ∧ f.rsv = 0 ∧ (fmt.aMustBeZero = true → f.a = 0) ∧
      (fmt.bMustBeZero = true → f.b = 0) := by
  unfold Fields.check
  cases formatOf f.op with
  | none => simp
  | some fmt => simp [ite_eq_iff, imp_iff_not_or]

/-- An operation code with a format names an operation, and that operation stands for the code and the operands its format
uses. -/
theorem operationOf_of_formatOf {op : BitVec 4} {fmt : Format} (h : formatOf op = some fmt) (a b : Byte) :
    ∃ i, operationOf op a b = some i ∧
      i.fields = ⟨op, 0, if fmt.aMustBeZero then 0 else a, if fmt.bMustBeZero then 0 else b⟩ := by
  rcases opcode_cases op with rfl | rfl | rfl | rfl | rfl | rfl | rfl | rfl | rfl | rfl | rfl | rfl | rfl | rfl | rfl | rfl
    <;> cases h <;> exact ⟨_, rfl, rfl⟩

/-- A legal request is an instruction's. -/
theorem decodeFields_of_check_eq_none {f : Fields} (h : f.check = none) : ∃ i, decodeFields f = .ok i ∧ i.fields = f := by
  obtain ⟨fmt, hfmt, hrsv, ha, hb⟩ := Fields.check_eq_none_iff.mp h
  obtain ⟨i, hi, hfields⟩ := operationOf_of_formatOf hfmt f.a f.b
  refine ⟨i, by simp [decodeFields, h, hi], ?_⟩
  rw [hfields, ite_eq_right_iff.mpr fun h => (ha h).symm, ite_eq_right_iff.mpr fun h => (hb h).symm, ← hrsv]

theorem decode_of_legal {w : ReqWord} (h : (fieldsOf w).check = none) : ∃ i, decode w = .ok i ∧ w = encode i := by
  obtain ⟨i, hi, hf⟩ := decodeFields_of_check_eq_none h
  exact ⟨i, hi, by rw [encode, hf, wordOf_fieldsOf]⟩

theorem decode_of_illegal {w : ReqWord} {e : Illegal} (h : (fieldsOf w).check = some e) : decode w = .error e := by
  rw [decode, decodeFields, h]

/-- Different instructions have different words. -/
theorem encode_inj {i j : Instr} : encode i = encode j ↔ i = j := by
  refine ⟨fun h => ?_, fun h => h ▸ rfl⟩
  simpa using congrArg decode h

@[simp] theorem encode_op (i : Instr) : (encode i).extractLsb' 20 4 = i.fields.op :=
  congrArg Fields.op (fieldsOf_wordOf i.fields)

@[simp] theorem encode_rsv (i : Instr) : (encode i).extractLsb' 16 4 = i.fields.rsv :=
  congrArg Fields.rsv (fieldsOf_wordOf i.fields)

@[simp] theorem encode_a (i : Instr) : (encode i).extractLsb' 8 8 = i.fields.a :=
  congrArg Fields.a (fieldsOf_wordOf i.fields)

@[simp] theorem encode_b (i : Instr) : (encode i).extractLsb' 0 8 = i.fields.b :=
  congrArg Fields.b (fieldsOf_wordOf i.fields)

/-- The list of R53 names the words that break one of its conditions. -/
theorem illegalWord_iff {w : ReqWord} : Claim.IllegalWord w ↔ (fieldsOf w).check ≠ none := by
  rw [Ne, Fields.check_eq_none_iff]
  simp only [Claim.IllegalWord, fieldsOf]
  generalize w.extractLsb' 20 4 = op
  rcases opcode_cases op with rfl | rfl | rfl | rfl | rfl | rfl | rfl | rfl | rfl | rfl | rfl | rfl | rfl | rfl | rfl | rfl
    <;> simp [formatOf, Format.aMustBeZero, Format.bMustBeZero, ← imp_iff_not_or]

end Sys2Proof

/-! ### The outcome R164 names, and the four ends a request has -/

namespace Sys2Proof.Machine
open Sys2Proof.Claim

variable {s t : State} {i : Instr}

/-- The framed word at index `3 * j` of a byte sequence ends in the checksum of its two data bytes (R105). -/
def WordMatches (bs : List Byte) (j : Nat) : Prop :=
  (bs[3 * j]?.bind fun d0 => bs[3 * j + 1]?.map fun d1 => crc8Word d0 d1) = bs[3 * j + 2]?

theorem not_mismatch_iff {j : Nat} : ¬ Mismatch s j ↔ WordMatches s.bytes j := by
  simp [Mismatch, checksumAt, WordMatches, State.bytes_getElem?]

@[simp] theorem wordMatches_cons_zero {d0 d1 c : Byte} {bs : List Byte} :
    WordMatches (d0 :: d1 :: c :: bs) 0 ↔ crc8Word d0 d1 = c := by
  simp [WordMatches]

@[simp] theorem wordMatches_cons_succ {d0 d1 c : Byte} {bs : List Byte} {j : Nat} :
    WordMatches (d0 :: d1 :: c :: bs) (j + 1) ↔ WordMatches bs j := by
  simp [WordMatches, show 3 * (j + 1) = 3 * j + 3 by omega]

/-- `checksumsMatch` looks at every framed word. -/
theorem checksumsMatch_iff {bs : List Byte} {k : Nat} (h : bs.length = 3 * k) :
    checksumsMatch bs = true ↔ ∀ j < k, WordMatches bs j := by
  induction k generalizing bs with
  | zero => simp [List.eq_nil_of_length_eq_zero h, checksumsMatch]
  | succ k ih =>
    match bs, h with
    | d0 :: d1 :: c :: bs, h =>
      have hl : bs.length = 3 * k := by simp only [List.length_cons] at h; omega
      rw [Nat.forall_lt_succ_left]
      simp [checksumsMatch, ih hl]

/-- DEC's check in the terms of R164: some word of the frame in `BUF` has a wrong checksum byte. -/
theorem exists_mismatch_iff (h3 : s.len.toNat % 3 = 0) :
    (∃ j < s.len.toNat / 3, Mismatch s j) ↔ checksumsMatch s.bytes = false := by
  have hk : s.bytes.length = 3 * (s.len.toNat / 3) := by rw [State.bytes_length]; omega
  rw [← not_iff_not, Bool.not_eq_false, checksumsMatch_iff hk]
  simp [← not_mismatch_iff]

theorem Completes.operationOutcome_eq {u : State} {v : Byte} (h : Completes i s u v) :
    operationOutcome s i.fields.op.toNat i.fields.a.toNat = (.ok, s.fcause) := by
  cases h with
  | encPass _ _ hi h2 => rcases hi with rfl | rfl <;> simp [operationOutcome, Instr.fields, Nat.not_lt.mpr h2]
  | encf _ _ h3 | enci _ _ h3 => simp [operationOutcome, Instr.fields, h3]
  | dec _ h3 hm => simp [operationOutcome, Instr.fields, h3, exists_mismatch_iff h3, hm]
  | push _ _ h => simp [operationOutcome, Instr.fields, show s.len.toNat ≠ 64 from h]
  | wrb _ _ _ h | rdb _ _ h => simp [operationOutcome, Instr.fields, Nat.not_le.mpr h]
  | crcw | clrb | getl | gets => simp [operationOutcome, Instr.fields]

theorem Raises.operationOutcome_eq {c : Cause} (h : Raises i s c) :
    operationOutcome s i.fields.op.toNat i.fields.a.toNat = (.fault, c.code) := by
  cases h with
  | enc _ _ hi h2 h3 => rcases hi with rfl | rfl <;> simp [operationOutcome, Instr.fields, h2, h3, Cause.code]
  | dec _ h3 => simp [operationOutcome, Instr.fields, h3, Cause.code]
  | push _ _ h => simp [operationOutcome, Instr.fields, show s.len.toNat = 64 from h, Cause.code]
  | wrb _ _ _ h | rdb _ _ h => simp [operationOutcome, Instr.fields, h, Cause.code]

theorem operationOutcome_dec_of_mismatch (h3 : s.len.toNat % 3 = 0) (hm : checksumsMatch s.bytes = false) :
    operationOutcome s (Instr.fields .dec).op.toNat (Instr.fields .dec).a.toNat = (.ckerr, s.fcause) := by
  simp [operationOutcome, Instr.fields, h3, exists_mismatch_iff h3, hm]

theorem outcome_of_refused {w : ReqWord} (hf : s.fault = true) (hw : w ≠ 0xA00000) :
    outcome s w = (.fault, s.fcause) := if_pos ⟨hf, hw⟩

theorem outcome_of_illegal {w : ReqWord} (hf : s.fault = false) (hw : IllegalWord w) : outcome s w = (.fault, 1) := by
  rw [outcome, if_neg (by simp [hf]), if_pos hw]

theorem not_illegalWord_encode (i : Instr) : ¬ IllegalWord (encode i) := by
  obtain ⟨hwf, -⟩ := wordLegal i
  rw [illegalWord_iff, encode, fieldsOf_wordOf, not_not]
  exact Option.isNone_iff_eq_none.mp hwf

theorem outcome_encode (h : s.fault = false ∨ i = .gets) :
    outcome s (encode i) = operationOutcome s i.fields.op.toNat i.fields.a.toNat := by
  have hg : ¬ (s.fault = true ∧ encode i ≠ 0xA00000) := by
    rintro ⟨hf, hi⟩
    rcases h with h | rfl
    · simp [h] at hf
    · exact hi rfl
  rw [outcome, if_neg hg, if_neg (not_illegalWord_encode i), encode_op, encode_a]

/-- A request on the port is served, with the host's later moves waiting. -/
theorem step_issuing (s : State) (w : ReqWord) : step (issuing s w) = serveRequest w s :=
  step_of_pending_cons (s := issuing s w) rfl

/-- The four ends of a request, each with what R164 says of it: refused, a fault, DEC's checksum error, completed. -/
theorem step_issuing_cases {w : ReqWord} (h : step (issuing s w) = .next t) :
    (s.fault = true ∧ outcome s w = (.fault, s.fcause) ∧ t = s.answer .fault 0x00) ∨
    (s.fault = false ∧ ∃ c : Cause, outcome s w = (.fault, c.code) ∧ t = (s.faulted c).answer .fault 0x00) ∨
    (s.fault = false ∧ w = encode .dec ∧ outcome s w = (.ckerr, s.fcause) ∧ t = (s.setCkerr true).answer .ckerr 0x00) ∨
    (∃ i u v, w = encode i ∧ Completes i s u v ∧ outcome s w = (.ok, s.fcause) ∧ t = u.answer .ok v) := by
  rw [step_issuing, serveRequest] at h
  cases hc : (fieldsOf w).check with
  | some e =>
    have hw : IllegalWord w := illegalWord_iff.mpr (by simp [hc])
    rw [decode_of_illegal hc] at h
    rcases illegalRequest_next.mp h with ⟨hf, ht⟩ | ⟨hf, ht⟩
    · have hne : w ≠ 0xA00000 := by rintro rfl; exact not_illegalWord_encode .gets hw
      exact .inl ⟨hf, outcome_of_refused hf hne, ht⟩
    · exact .inr (.inl ⟨hf, .illegalRequest, outcome_of_illegal hf hw, ht⟩)
  | none =>
    obtain ⟨i, hd, rfl⟩ := decode_of_legal hc
    rw [hd] at h
    rcases exec_cases h with ⟨hf, hi, ht⟩ | ⟨hf, c, hr, ht⟩ | ⟨hf, rfl, h3, hm, ht⟩ | ⟨hs, u, v, hu, ht⟩
    · have hne : encode i ≠ 0xA00000 := fun e => hi (encode_inj.mp (e : encode i = encode .gets))
      exact .inl ⟨hf, outcome_of_refused hf hne, ht⟩
    · exact .inr (.inl ⟨hf, c, (outcome_encode (.inl hf)).trans hr.operationOutcome_eq, ht⟩)
    · exact .inr (.inr (.inl
        ⟨hf, rfl, (outcome_encode (.inl hf)).trans (operationOutcome_dec_of_mismatch h3 hm), ht⟩))
    · exact .inr (.inr (.inr ⟨i, u, v, rfl, hu, (outcome_encode hs).trans hu.operationOutcome_eq, ht⟩))

/-! ### Who writes `CKERR` and `LEN` (R12, R13) -/

theorem Completes.responses_eq {u : State} {v : Byte} (h : Completes i s u v) : u.responses = s.responses := by
  cases h <;> rfl

theorem Completes.ckerr_eq {u : State} {v : Byte} (h : Completes i s u v) :
    u.ckerr = if i = .dec then false else s.ckerr := by
  cases h with
  | encPass _ _ hi => rcases hi with rfl | rfl <;> rfl
  | _ => rfl

/-- `LEN` after a completed instruction. -/
theorem Completes.len_toNat {u : State} {v : Byte} (h : Completes i s u v) (hs : s.Inv) :
    u.len.toNat =
      if i.fields.op = 0x6 then s.len.toNat + 1
      else if i.fields.op = 0x5 then 0
      else if i.fields.op = 0x4 then 2 * (s.len.toNat / 3)
      else s.len.toNat := by
  cases h with
  | push _ val h => exact State.append_len_toNat hs h val
  | clrb => rfl
  | dec _ h3 hm =>
    have hk : s.bytes.length = 3 * (s.len.toNat / 3) := by rw [State.bytes_length]; omega
    calc (BitVec.ofNat 8 (dataBytes s.bytes).length).toNat
        = (dataBytes s.bytes).length := toNat_ofNat_of_le_bufSize hs.dataBytes_length_le
      _ = 2 * (s.len.toNat / 3) := dataBytes_length hk
  | encPass _ _ hi => rcases hi with rfl | rfl <;> rfl
  | _ => rfl

/-- The response a request adds to the record is the one it was answered with. -/
theorem res_of_answer_responses {u : State} {res : Res} {rdata : Byte} {r : Response} (hu : u.responses = s.responses)
    (hr : (u.answer res rdata).responses = s.responses ++ [r]) : r.res = res := by
  rw [State.answer_responses, hu] at hr
  cases List.append_cancel_left hr; rfl

/-- Settles O35: of the four ends of a request, DEC's checksum error sets `CKERR`, a completed request clears it if it is
a DEC, and the other two leave it. -/
theorem onlyDecWritesCkerr : Obligations.OnlyDecWritesCkerr := by
  intro s w t r h hr
  rcases step_issuing_cases h with ⟨-, -, rfl⟩ | ⟨-, c, -, rfl⟩ | ⟨-, hw, -, rfl⟩ | ⟨i, u, v, hw, hu, -, rfl⟩
  · rw [res_of_answer_responses rfl hr]; exact ⟨fun _ => rfl, fun _ => rfl⟩
  · rw [res_of_answer_responses rfl hr]; exact ⟨fun _ => rfl, fun _ => rfl⟩
  · rw [res_of_answer_responses rfl hr]; exact ⟨fun hne => absurd hw hne, fun _ => rfl⟩
  · have hdec : w = 0x400000 ↔ i = .dec := by rw [hw]; exact encode_inj (j := .dec)
    rw [res_of_answer_responses hu.responses_eq hr, State.answer_ckerr, hu.ckerr_eq]
    exact ⟨fun hne => if_neg (mt hdec.mpr hne), fun he => if_pos (hdec.mp he)⟩

/-- Settles O36: a request that does not complete leaves `LEN`, and a completed one does what `Completes.len_toNat` says; the
bound is the invariant's. -/
theorem lengthWriters : Obligations.LengthWriters := by
  intro s w t hs h
  have ht : t.Inv := step_inv (hs.setPending _) h
  refine ⟨ht.len_le, State.bytes_length t, ?_⟩
  rcases step_issuing_cases h with ⟨-, ho, rfl⟩ | ⟨-, c, ho, rfl⟩ | ⟨-, -, ho, rfl⟩ | ⟨i, u, v, rfl, hu, ho, rfl⟩
  · simp [ho]
  · simp [ho]
  · simp [ho]
  · rw [ho, encode_op, if_neg (by simp)]
    exact hu.len_toNat hs

end Sys2Proof.Machine

/-! ### Running an instruction twice (R35) -/

namespace Sys2Proof.Machine

variable {s t : State} {i : Instr}

/-- A faulted block refuses every instruction but GETS (R166). -/
theorem exec_of_fault (hf : s.fault = true) (hi : i ≠ .gets) : exec i s = .next (s.answer .fault 0x00) := by
  cases i with
  | gets => exact absurd rfl hi
  | _ => exact unlessFaulted_of_fault hf

theorem Raises.ne_gets {c : Cause} (h : Raises i s c) : i ≠ .gets := by
  cases h with
  | enc _ _ hi => rcases hi with rfl | rfl <;> simp
  | _ => simp

/-- Completing an instruction does not raise a fault (R160). -/
theorem Completes.fault_eq {u : State} {v : Byte} (h : Completes i s u v) : u.fault = s.fault := by
  cases h <;> rfl

/-- The state an instruction leaves when it completes is one in which it completes again with the same data and no change. -/
def Repeats (i : Instr) (s : State) : Prop :=
  ∀ u v, Completes i s u v → Completes i (u.answer .ok v) (u.answer .ok v) v

/-- An instruction that repeats answers a second run as it answered the first, and the second run changes nothing else. A run
that does not complete needs no such hypothesis: a refusal and a fault are followed by a refusal, and DEC's checksum error
leaves the buffer it was found in. -/
theorem Repeats.exec_again (hs : Repeats i s) (h : exec i s = .next t) :
    ∃ res rdata, t.responses = s.responses ++ [⟨res, rdata⟩] ∧ exec i t = .next (t.answer res rdata) := by
  rcases exec_cases h with ⟨hf, hi, rfl⟩ | ⟨-, c, hr, rfl⟩ | ⟨hf, rfl, h3, hm, rfl⟩ | ⟨hfi, u, v, hu, rfl⟩
  · exact ⟨_, _, rfl, exec_of_fault hf hi⟩
  · exact ⟨_, _, rfl, exec_of_fault rfl hr.ne_gets⟩
  · exact ⟨_, _, rfl, execDec_next.mpr (.inr (.inr (.inr ⟨hf, h3, hm, rfl⟩)))⟩
  · refine ⟨.ok, v, ?_, (hs u v hu).exec_eq (hfi.imp_left fun hf => ?_)⟩
    · rw [State.answer_responses, hu.responses_eq]
    · rw [State.answer_fault, hu.fault_eq, hf]

/-- A response is no architectural element. -/
theorem State.sameElements_answer (s : State) (res : Res) (rdata : Byte) : s.SameElements (s.answer res rdata) :=
  ⟨rfl, rfl, rfl, rfl, rfl⟩

/-! ### The reads and CRCW -/

/-- The requests R35 says have no side effect, RDB at an index that exists. -/
def ReadsIn (i : Instr) (s : State) : Prop :=
  (∃ b0 b1, i = .crcw b0 b1) ∨ (∃ idx, i = .rdb idx ∧ idx.toNat < s.len.toNat) ∨ i = .getl ∨ i = .gets

theorem ReadsIn.not_raises {c : Cause} (hi : ReadsIn i s) : ¬ Raises i s c := by
  intro h
  cases h with
  | enc _ _ he => rcases he with rfl | rfl <;> simp [ReadsIn] at hi
  | rdb _ idx hle => exact absurd (by simpa [ReadsIn] using hi) (Nat.not_lt.mpr hle)
  | _ => simp [ReadsIn] at hi

theorem ReadsIn.ne_dec (hi : ReadsIn i s) : i ≠ .dec := by
  rintro rfl
  simp [ReadsIn] at hi

theorem Completes.eq_of_readsIn {u : State} {v : Byte} (h : Completes i s u v) (hi : ReadsIn i s) : u = s := by
  cases h with
  | crcw | encPass | rdb | getl | gets => rfl
  | _ => simp [ReadsIn] at hi

/-- What a read answers is decided by the elements, which its response does not touch. -/
theorem ReadsIn.repeats (hi : ReadsIn i s) : Repeats i s := by
  intro u v h
  cases h with
  | crcw _ b0 b1 => exact .crcw _ b0 b1
  | rdb _ idx hlt => exact .rdb (s.answer .ok _) idx hlt
  | getl => exact .getl (s.answer .ok _)
  | gets => exact .gets (s.answer .ok _)
  | encPass _ _ he => rcases he with rfl | rfl <;> simp [ReadsIn] at hi
  | _ => simp [ReadsIn] at hi

theorem ReadsIn.sameElements (hi : ReadsIn i s) (h : exec i s = .next t) : s.SameElements t := by
  rcases exec_cases h with ⟨-, -, rfl⟩ | ⟨-, c, hr, -⟩ | ⟨-, hd, -⟩ | ⟨-, u, v, hu, rfl⟩
  · exact s.sameElements_answer _ _
  · exact absurd hr hi.not_raises
  · exact absurd hd hi.ne_dec
  · rw [hu.eq_of_readsIn hi]
    exact s.sameElements_answer _ _

/-! ### ENCF, CLRB and WRB -/

@[simp] theorem fillSlots_fillSlots (bs : List Byte) : fillSlots (fillSlots bs) = fillSlots bs := by
  induction bs using fillSlots.induct with
  | case1 d0 d1 p body ih => simp [fillSlots, ih]
  | case2 rest h => simp [fillSlots.eq_2 rest h]

/-- A filled frame has its checksums in the slots already (R90). -/
@[simp] theorem enc_enc (bs : List Byte) : enc (enc bs) = enc bs := by
  match bs with
  | [] => rfl
  | [_] => rfl
  | c0 :: c1 :: body => simp [enc]

/-- Writing a byte where it stands already changes no cell. -/
theorem Memory.write_write_self {m : Memory} (hm : m.wf) (i : Nat) (v : Byte) :
    (m.write i v).write i v = m.write i v := by
  have hw := Memory.write_wf i v hm
  refine Memory.ext_of_wf (Memory.write_wf i v hw) hw fun j => ?_
  rw [Memory.read_write i j v hw, Memory.read_write i j v hm]
  split <;> rfl

theorem State.store_eq_self (s : State) {i : Nat} {v : Byte} (h : s.buf.write i v = s.buf) : s.store i v = s := by
  rw [State.store, h]

theorem repeats_encf (s : State) : Repeats .encf s := by
  intro u v h
  cases h with
  | encPass _ _ hi h2 => exact .encPass _ _ hi h2
  | encf _ h2 h3 =>
    have hc := Completes.encf ((s.overwrite (enc s.bytes)).answer .ok 0x00) h2 h3
    rw [State.answer_bytes, State.overwrite_bytes s (by simp), enc_enc] at hc
    exact hc

theorem repeats_clrb (s : State) : Repeats .clrb s := by
  intro u v h
  cases h with
  | encPass _ _ hi => simp at hi
  | clrb => exact .clrb (s.clear.answer .ok 0x00)

theorem repeats_wrb (hm : s.buf.wf) (idx val : Byte) : Repeats (.wrb idx val) s := by
  intro u v h
  cases h with
  | encPass _ _ hi => simp at hi
  | wrb _ _ _ hlt =>
    have hc := Completes.wrb ((s.store idx.toNat val).answer .ok 0x00) idx val hlt
    have he := State.store_eq_self ((s.store idx.toNat val).answer .ok 0x00) (Memory.write_write_self hm idx.toNat val)
    rwa [he] at hc

/-- Settles O24: a read completes in its own state and answers from elements it leaves, so both runs answer alike; ENCF, CLRB
and WRB complete a second time in the state the first run left. -/
theorem readsAreSilentAndWritesIdempotent : Obligations.ReadsAreSilentAndWritesIdempotent := by
  refine ⟨fun i s t (hi : ReadsIn i s) h => ⟨hi.sameElements h, ?_⟩, fun i s t u hi ht hu => ?_⟩
  · obtain ⟨res, rdata, hr, hagain⟩ := hi.repeats.exec_again h
    exact ⟨⟨res, rdata⟩, _, hr, hagain, rfl⟩
  · have hs : Repeats i s := by
      rcases hi with rfl | rfl | ⟨hinv, idx, val, rfl⟩
      · exact repeats_encf s
      · exact repeats_clrb s
      · exact repeats_wrb hinv.buf_wf idx val
    obtain ⟨res, rdata, -, hagain⟩ := hs.exec_again ht
    cases hagain.symm.trans hu
    exact t.sameElements_answer res rdata

end Sys2Proof.Machine

/-! ### The decoder and the encoder are inverse; how many words are legal (R50 to R53) -/

namespace Sys2Proof
open Machine Claim

/-- A word decodes to an instruction exactly when it is that instruction's word. -/
theorem decode_eq_ok_iff {w : ReqWord} {i : Instr} : decode w = .ok i ↔ encode i = w := by
  refine ⟨fun h => ?_, fun h => h ▸ decode_encode i⟩
  cases hc : (fieldsOf w).check with
  | some e => simp [decode_of_illegal hc] at h
  | none =>
    obtain ⟨j, hj, hw⟩ := decode_of_legal hc
    cases hj.symm.trans h
    exact hw.symm

/-- The legal words are the instructions' words. -/
theorem not_illegalWord_iff_exists_encode {w : ReqWord} : ¬ IllegalWord w ↔ ∃ i, encode i = w := by
  refine ⟨fun h => ?_, fun ⟨i, hi⟩ => hi ▸ not_illegalWord_encode i⟩
  obtain ⟨i, -, hw⟩ := decode_of_legal (not_not.mp (mt illegalWord_iff.mpr h))
  exact ⟨i, hw.symm⟩

/-- So there are as many legal words as instructions. -/
theorem card_legal_words : Nat.card { w : ReqWord // ¬ IllegalWord w } = Nat.card Instr :=
  calc Nat.card { w : ReqWord // ¬ IllegalWord w }
      = Nat.card (Set.range encode) :=
        Nat.card_congr (Equiv.subtypeEquivRight fun _ => not_illegalWord_iff_exists_encode)
    _ = Nat.card Instr := Nat.card_range_of_injective fun _ _ => encode_inj.mp

/-- The instructions by format: two with two operands, PUSH and RDB with one, six with none (R51, R52). -/
def instrEquivOperands : Instr ≃ (Byte × Byte ⊕ Byte × Byte) ⊕ (Byte ⊕ Byte) ⊕ Fin 6 where
  toFun
    | .crcw b0 b1 => .inl (.inl (b0, b1))
    | .wrb idx val => .inl (.inr (idx, val))
    | .push val => .inr (.inl (.inl val))
    | .rdb idx => .inr (.inl (.inr idx))
    | .encf => .inr (.inr 0)
    | .enci => .inr (.inr 1)
    | .dec => .inr (.inr 2)
    | .clrb => .inr (.inr 3)
    | .getl => .inr (.inr 4)
    | .gets => .inr (.inr 5)
  invFun
    | .inl (.inl (b0, b1)) => .crcw b0 b1
    | .inl (.inr (idx, val)) => .wrb idx val
    | .inr (.inl (.inl val)) => .push val
    | .inr (.inl (.inr idx)) => .rdb idx
    | .inr (.inr 0) => .encf
    | .inr (.inr 1) => .enci
    | .inr (.inr 2) => .dec
    | .inr (.inr 3) => .clrb
    | .inr (.inr 4) => .getl
    | .inr (.inr 5) => .gets
  left_inv i := by cases i <;> rfl
  right_inv
    | .inl (.inl _) | .inl (.inr _) | .inr (.inl (.inl _)) | .inr (.inl (.inr _)) => rfl
    | .inr (.inr 0) | .inr (.inr 1) | .inr (.inr 2) | .inr (.inr 3) | .inr (.inr 4) | .inr (.inr 5) => rfl

theorem card_byte : Nat.card Byte = 256 := by
  rw [Nat.card_congr BitVec.equivFin.toEquiv, Nat.card_fin]; rfl

theorem card_instr : Nat.card Instr = 131590 := by
  rw [Nat.card_congr instrEquivOperands]
  simp only [Nat.card_sum, Nat.card_prod, Nat.card_fin, card_byte]

/-- An illegal word on the port is an illegal request, whichever condition of R53 it breaks. -/
theorem step_issuing_of_illegalWord {w : ReqWord} (hw : IllegalWord w) (s : State) :
    step (issuing s w) = illegalRequest s := by
  obtain ⟨e, he⟩ := Option.ne_none_iff_exists'.mp (illegalWord_iff.mp hw)
  rw [step_issuing, serveRequest, decode_of_illegal he]

/-- Settles O25, by decoding the eight words. -/
theorem sampleWordsDecode : Obligations.SampleWordsDecode := by
  unfold Obligations.SampleWordsDecode
  decide

/-- Settles O26: the round trip `decode_eq_ok_iff`, read in both directions. -/
theorem decodeAndEncodeAgree : Obligations.DecodeAndEncodeAgree :=
  ⟨decode_encode, fun _ _ => decode_eq_ok_iff.mp⟩

/-- Settles O27: the legal words are those the encoder gives, one for each instruction; any other is an illegal request. -/
theorem illegalRequestsFault : Obligations.IllegalRequestsFault := by
  refine ⟨fun w => ?_, fun s w hw hf => ?_, fun s w hw hf => ?_, card_legal_words.trans card_instr⟩
  · simp only [decode_eq_ok_iff, not_illegalWord_iff_exists_encode]
  · rw [step_issuing_of_illegalWord hw]
    exact illegalRequest_next.mpr (.inr ⟨hf, rfl⟩)
  · rw [step_issuing_of_illegalWord hw]
    exact illegalRequest_next.mpr (.inl ⟨hf, rfl⟩)

end Sys2Proof

/-! ### Every request has its one response (R54) -/

namespace Sys2Proof.Machine
open Sys2Proof.Claim

variable {s t : State} {i : Instr}

/-- A checked operation has a next state if its body has one. -/
theorem unlessFaulted_total {k : Host.Outcome State Fault Refusal} (hk : ∃ t, k = .next t) :
    ∃ t, unlessFaulted s k = .next t := by
  cases hf : s.fault with
  | true => exact ⟨_, unlessFaulted_of_fault hf⟩
  | false => rwa [unlessFaulted_of_not_fault hf]

theorem encodeBuffer_total (f : List Byte → List Byte) (s : State) : ∃ t, encodeBuffer f s = .next t := by
  refine unlessFaulted_total ?_
  split
  · exact ⟨_, rfl⟩
  · split <;> exact ⟨_, rfl⟩

/-- Every instruction has a next state in every state (R160). -/
theorem exec_total (i : Instr) (s : State) : ∃ t, exec i s = .next t := by
  cases i with
  | crcw | clrb | getl => exact unlessFaulted_total ⟨_, rfl⟩
  | gets => exact ⟨_, rfl⟩
  | encf => exact encodeBuffer_total enc s
  | enci => exact encodeBuffer_total encI s
  | dec =>
    refine unlessFaulted_total ?_
    split
    · split <;> exact ⟨_, rfl⟩
    · exact ⟨_, rfl⟩
  | push | wrb | rdb =>
    refine unlessFaulted_total ?_
    split <;> exact ⟨_, rfl⟩

/-- Every request word on the port has a next state, legal or not. -/
theorem step_issuing_total (s : State) (w : ReqWord) : ∃ t, step (issuing s w) = .next t := by
  rw [step_issuing, serveRequest]
  split
  · exact exec_total _ s
  · exact unlessFaulted_total ⟨_, rfl⟩

/-! ### The response word and its data -/

@[simp] theorem Response.word_res (r : Response) : r.word.extractLsb' 8 2 = r.res.code :=
  BitVec.extractLsb'_append_eq_left

@[simp] theorem Response.word_rdata (r : Response) : r.word.extractLsb' 0 8 = r.rdata :=
  BitVec.extractLsb'_append_eq_right

/-- The host's later moves are not the block's to take. -/
theorem Completes.pending_eq {u : State} {v : Byte} (h : Completes i s u v) : u.pending = s.pending := by
  cases h <;> rfl

/-- The data of a completed instruction's response (R54). -/
theorem Completes.rdata_eq {u : State} {v : Byte} (h : Completes i s u v) :
    if i.fields.op = 0x1 then v = crc8Word i.fields.a i.fields.b
    else if i.fields.op = 0x8 then s.byte? i.fields.a.toNat = some v
    else if i.fields.op = 0x9 then v = s.len
    else if i.fields.op = 0xA then v = s.status
    else v = 0x00 := by
  cases h with
  | encPass _ _ hi => rcases hi with rfl | rfl <;> simp [Instr.fields]
  | rdb _ idx hlt => simpa [Instr.fields] using State.byte?_of_lt s hlt
  | _ => simp [Instr.fields]

/-- GETS is never refused: its word has the outcome OK in every state. -/
theorem outcome_gets (s : State) : outcome s 0xA00000 = (.ok, s.fcause) :=
  (outcome_encode (i := .gets) (.inr rfl)).trans (Completes.gets s).operationOutcome_eq

/-- Settles O28: of the four ends of a request, a refusal and a fault answer FAULT, DEC's checksum error answers CKERR, and a
completed request answers OK with the data `Completes.rdata_eq` says. -/
theorem everyRequestGetsOneResponse : Obligations.EveryRequestGetsOneResponse := by
  intro s w
  obtain ⟨t, h⟩ := step_issuing_total s w
  have hword (r : Response) : r.word.extractLsb' 8 2 = (match r.res with | .ok => 0 | .ckerr => 1 | .fault => 2) := by
    rw [r.word_res]; cases r.res <;> rfl
  rcases step_issuing_cases h with ⟨hf, ho, rfl⟩ | ⟨hf, c, -, rfl⟩ | ⟨hf, hw, -, rfl⟩ | ⟨i, u, v, rfl, hu, ho, rfl⟩
  · have hne : w ≠ 0xA00000 := by rintro rfl; cases (outcome_gets s).symm.trans ho
    exact ⟨_, ⟨.fault, 0x00⟩, h, rfl, rfl, hword _, Response.word_rdata _,
      ⟨fun _ => .inl ⟨hf, hne⟩, fun _ => rfl⟩, nofun, fun _ => rfl, nofun⟩
  · exact ⟨_, ⟨.fault, 0x00⟩, h, rfl, rfl, hword _, Response.word_rdata _,
      ⟨fun _ => .inr ⟨hf, rfl⟩, fun _ => rfl⟩, nofun, fun _ => rfl, nofun⟩
  · exact ⟨_, ⟨.ckerr, 0x00⟩, h, rfl, rfl, hword _, Response.word_rdata _,
      by simp [hf], fun _ => ⟨hw, rfl⟩, fun _ => rfl, nofun⟩
  · refine ⟨_, ⟨.ok, v⟩, h, hu.pending_eq, ?_, hword _, Response.word_rdata _, ⟨nofun, ?_⟩, nofun,
      fun hne => absurd rfl hne, fun _ => ?_⟩
    · rw [State.answer_responses, hu.responses_eq]
    · rintro (⟨hf, hne⟩ | ⟨hf, ht⟩)
      · cases (outcome_of_refused hf hne).symm.trans ho
      · simp [hu.fault_eq, hf] at ht
    · simpa using hu.rdata_eq

end Sys2Proof.Machine

/-! ### Operations on the port: what they do does not depend on the moves waiting behind them (R8, R36) -/

namespace Sys2Proof.Machine
open Sys2Proof.Claim

variable {s t u : State} {i : Instr} {is js : List Instr} {rs qs : List Response}

/-- Where an instruction raises a cause, `exec` answers the fault entry of R165. -/
theorem Raises.exec_eq {c : Cause} (h : Raises i s c) (hf : s.fault = false) :
    exec i s = .next ((s.faulted c).answer .fault 0x00) := by
  cases h with
  | enc _ _ hi h2 h3 => rcases hi with rfl | rfl <;>
      exact encodeBuffer_next.mpr (.inr (.inr (.inr ⟨hf, h2, h3, rfl⟩)))
  | dec _ h3 => exact execDec_next.mpr (.inr (.inl ⟨hf, h3, rfl⟩))
  | push _ val h => simp [exec, execPush, hf, h, raiseFault, respond]
  | wrb _ idx val h => simp [exec, execWrb, hf, indexed_none.mpr h, raiseFault, respond]
  | rdb _ idx h => simp [exec, execRdb, hf, indexed_none.mpr h, raiseFault, respond]

theorem Completes.setPending {v : Byte} (h : Completes i s u v) (es : List HostEvent) :
    Completes i { s with pending := es } { u with pending := es } v := by
  cases h with
  | crcw _ b0 b1 => exact .crcw _ b0 b1
  | encPass _ _ hi h2 => exact .encPass _ _ hi h2
  | encf _ h2 h3 => exact .encf { s with pending := es } h2 h3
  | enci _ h2 h3 => exact .enci { s with pending := es } h2 h3
  | dec _ h3 hm => exact .dec { s with pending := es } h3 hm
  | clrb => exact .clrb { s with pending := es }
  | push _ val h => exact .push { s with pending := es } val h
  | wrb _ idx val h => exact .wrb { s with pending := es } idx val h
  | rdb _ idx h => exact .rdb { s with pending := es } idx h
  | getl => exact .getl { s with pending := es }
  | gets => exact .gets { s with pending := es }

theorem Raises.setPending {c : Cause} (h : Raises i s c) (es : List HostEvent) :
    Raises i { s with pending := es } c := by
  cases h with
  | enc _ _ hi h2 h3 => exact .enc _ _ hi h2 h3
  | dec _ h3 => exact .dec _ h3
  | push _ val h => exact .push _ val h
  | wrb _ idx val h => exact .wrb _ idx val h
  | rdb _ idx h => exact .rdb _ idx h

/-- What an instruction does is the same whatever host moves wait. -/
theorem exec_setPending (h : exec i s = .next t) (es : List HostEvent) :
    exec i { s with pending := es } = .next { t with pending := es } := by
  rcases exec_cases h with ⟨hf, hi, rfl⟩ | ⟨hf, c, hr, rfl⟩ | ⟨hf, rfl, h3, hm, rfl⟩ | ⟨hfi, u, v, hu, rfl⟩
  · exact exec_of_fault hf hi
  · exact (hr.setPending es).exec_eq hf
  · exact execDec_next.mpr (.inr (.inr (.inr ⟨hf, h3, hm, rfl⟩)))
  · exact (hu.setPending es).exec_eq hfi

/-- An instruction leaves the host's moves waiting. -/
theorem exec_pending (h : exec i s = .next t) : t.pending = s.pending := by
  have hs : exec i s = .next { t with pending := s.pending } := exec_setPending h s.pending
  have ht : t = { t with pending := s.pending } := Host.Outcome.next.inj (h.symm.trans hs)
  rw [ht]

/-- An instruction gives one response (R54). -/
theorem exec_responses (h : exec i s = .next t) : ∃ r, t.responses = s.responses ++ [r] := by
  rcases exec_cases h with ⟨-, -, rfl⟩ | ⟨-, c, -, rfl⟩ | ⟨-, -, -, -, rfl⟩ | ⟨-, u, v, hu, rfl⟩
  · exact ⟨_, rfl⟩
  · exact ⟨_, rfl⟩
  · exact ⟨_, rfl⟩
  · exact ⟨⟨.ok, v⟩, by rw [State.answer_responses, hu.responses_eq]⟩

/-- The first operation of a queue is served, and the rest of the queue waits. -/
theorem step_queued_cons (h : exec i s = .next t) : step (queued (i :: is) s) = .next (queued is t) := by
  have hp : (queued (i :: is) s).pending = .request (encode i) :: (requestsOf is ++ s.pending) := rfl
  calc step (queued (i :: is) s)
      = exec i { s with pending := requestsOf is ++ s.pending } := step_of_decode_ok hp (decode_encode i)
    _ = .next { t with pending := requestsOf is ++ s.pending } := exec_setPending h _
    _ = .next (queued is t) := by rw [queued, exec_pending h]

/-! ### A sequence of operations performed, with the responses it gets -/

/-- The operations `is`, performed one after another from `s`, get the responses `rs` and leave `t`. -/
inductive Performs : List Instr → State → List Response → State → Prop where
  | nil (s : State) : Performs [] s [] s
  | cons {i : Instr} {is : List Instr} {s t u : State} {r : Response} {rs : List Response} (h : exec i s = .next t)
      (hr : t.responses = s.responses ++ [r]) (ht : Performs is t rs u) : Performs (i :: is) s (r :: rs) u

theorem Performs.length_eq (h : Performs is s rs t) : rs.length = is.length := by
  induction h with
  | nil => rfl
  | cons _ _ _ ih => simp [ih]

theorem Performs.responses_eq (h : Performs is s rs t) : t.responses = s.responses ++ rs := by
  induction h with
  | nil => simp
  | cons _ hr _ ih => simp [ih, hr]

theorem Performs.append (h : Performs is s rs t) (h' : Performs js t qs u) : Performs (is ++ js) s (rs ++ qs) u := by
  induction h with
  | nil => exact h'
  | cons hi hr _ ih => exact .cons hi hr (ih h')

/-- The port serves a queue of operations by performing them. -/
theorem Performs.run_eq (h : Performs is s rs t) : run is.length (queued is s) = .next t := by
  induction h with
  | nil s => rfl
  | cons hi _ _ ih => rw [List.length_cons, run, step_queued_cons hi]; exact ih

/-- The last response given decides whether the host goes on (R57). -/
theorem answeredOk_iff {r : Response} (h : t.responses = rs ++ [r]) : t.answeredOk = true ↔ r.res = .ok := by
  simp [State.answeredOk, h]

/-- The host goes on behind operations that are all answered OK. -/
theorem Performs.runOps_append (h : Performs is s rs t) (hok : ∀ r ∈ rs, r.res = .ok) (js : List Instr) :
    runOps (is ++ js) s = runOps js t := by
  induction h with
  | nil => rfl
  | cons hi hr _ ih =>
    obtain ⟨hr0, hrs⟩ := List.forall_mem_cons.mp hok
    simp only [List.cons_append, runOps, hi, (answeredOk_iff hr).mpr hr0, if_true, ih hrs]

/-- The host stops behind an operation that is not answered OK. -/
theorem runOps_of_not_ok {r : Response} (hi : exec i s = .next t) (hr : t.responses = s.responses ++ [r])
    (hne : r.res ≠ .ok) (is : List Instr) : runOps (i :: is) s = .next t := by
  simp [runOps, hi, mt (answeredOk_iff hr).mp hne]

/-- The responses `rs` end the run of `n` operations: none but the last can be other than OK, and there is one such or there
are `n` of them (R57). -/
def EndsRun (n : Nat) (rs : List Response) : Prop :=
  rs.length ≤ n ∧ (∀ r ∈ rs.dropLast, r.res = .ok) ∧ (rs.length = n ∨ ∃ r, rs.getLast? = some r ∧ r.res ≠ .ok)

theorem endsRun_zero : EndsRun 0 [] := ⟨Nat.le_refl _, nofun, .inl rfl⟩

theorem endsRun_of_not_ok {r : Response} (n : Nat) (hr : r.res ≠ .ok) : EndsRun (n + 1) [r] :=
  ⟨by simp, nofun, .inr ⟨r, rfl, hr⟩⟩

theorem EndsRun.cons {n : Nat} {r : Response} (h : EndsRun n rs) (hr : r.res = .ok) : EndsRun (n + 1) (r :: rs) := by
  obtain ⟨hle, hok, hend⟩ := h
  refine ⟨by simpa using hle, ?_, ?_⟩
  · cases rs with
    | nil => nofun
    | cons q qs => exact List.forall_mem_cons.mpr ⟨hr, hok⟩
  · refine hend.imp (by simp) fun ⟨q, hq, hne⟩ => ⟨q, ?_, hne⟩
    rw [List.getLast?_cons, hq]; rfl

/-- A run of operations performs the first of them, as many as it gets responses. -/
theorem runOps_performs (is : List Instr) (s : State) :
    ∃ t rs, runOps is s = .next t ∧ Performs (is.take rs.length) s rs t ∧ EndsRun is.length rs := by
  induction is generalizing s with
  | nil => exact ⟨s, [], rfl, .nil s, endsRun_zero⟩
  | cons i is ih =>
    obtain ⟨t, hi⟩ := exec_total i s
    obtain ⟨r, hr⟩ := exec_responses hi
    by_cases hok : r.res = .ok
    · obtain ⟨u, rs, hrun, hp, hend⟩ := ih t
      have h1 : Performs [i] s [r] t := .cons hi hr (.nil t)
      exact ⟨u, r :: rs, (h1.runOps_append (by simpa using hok) is).trans hrun, .cons hi hr hp, hend.cons hok⟩
    · exact ⟨t, [r], runOps_of_not_ok hi hr hok is, .cons hi hr (.nil t), endsRun_of_not_ok _ hok⟩

end Sys2Proof.Machine

/-! ### LOADB: the buffer loaded byte by byte (R57, R121) -/

namespace Sys2Proof.Machine
open Sys2Proof.Claim

variable {bs : List Byte}

/-- Writing the next byte of a sequence lists one byte more. -/
theorem Memory.ofBytes_write_length (bs : List Byte) (b : Byte) :
    (Memory.ofBytes bs).write bs.length b = Memory.ofBytes (bs ++ [b]) := by
  refine Memory.ext_of_wf (Memory.write_wf _ _ (Memory.ofBytes_wf bs)) (Memory.ofBytes_wf _) fun i => ?_
  rw [Memory.read_write _ i b (Memory.ofBytes_wf bs), Memory.read_ofBytes, Memory.read_ofBytes]
  rcases Nat.lt_trichotomy i bs.length with hlt | rfl | hgt
  · rw [if_neg (Nat.ne_of_lt hlt), List.getD_append _ _ _ _ hlt]
  · simp
  · rw [if_neg (Nat.ne_of_gt hgt), List.getD_eq_default _ _ (Nat.le_of_lt hgt), List.getD_eq_default _ _ (by simp; omega)]

/-- `s` with its buffer made `bs` and `n` responses OK/0x00 more. -/
def State.loaded (s : State) (bs : List Byte) (n : Nat) : State :=
  { s.load bs with responses := s.responses ++ List.replicate n ⟨.ok, 0x00⟩ }

@[simp] theorem State.loaded_fault (s : State) (bs : List Byte) (n : Nat) : (s.loaded bs n).fault = s.fault := rfl

theorem State.loaded_len_toNat (s : State) (h : bs.length ≤ 64) (n : Nat) : (s.loaded bs n).len.toNat = bs.length :=
  toNat_ofNat_of_le_bufSize h

theorem State.loaded_bytes (s : State) (h : bs.length ≤ 64) (n : Nat) : (s.loaded bs n).bytes = bs :=
  State.load_bytes s (by omega)

theorem State.answer_loaded (s : State) (bs : List Byte) (n : Nat) :
    (s.loaded bs n).answer .ok 0x00 = s.loaded bs (n + 1) := by
  rw [State.answer, State.loaded, State.loaded, List.replicate_succ', ← List.append_assoc]

theorem State.append_loaded (s : State) (h : bs.length ≤ 64) (n : Nat) (b : Byte) :
    (s.loaded bs n).append b = s.loaded (bs ++ [b]) n := by
  have hlen : BitVec.ofNat 8 bs.length + 1 = BitVec.ofNat 8 (bs ++ [b]).length := by
    rw [List.length_append, BitVec.ofNat_add]; rfl
  rw [State.append, s.loaded_len_toNat h]
  simp only [State.loaded, State.load, hlen, Memory.ofBytes_write_length]

/-- CLRB empties the buffer. -/
theorem exec_clrb {s : State} (hf : s.fault = false) : exec .clrb s = .next (s.loaded [] 1) :=
  (Completes.clrb s).exec_eq (.inl hf)

/-- PUSH appends a byte while there is room. -/
theorem exec_push_loaded {s : State} (hf : s.fault = false) (h : bs.length < 64) (b : Byte) (n : Nat) :
    exec (.push b) (s.loaded bs n) = .next (s.loaded (bs ++ [b]) (n + 1)) := by
  have hroom : (s.loaded bs n).len.toNat ≠ Config.bufSize := by
    rw [s.loaded_len_toNat (by omega)]; exact Nat.ne_of_lt h
  rw [(Completes.push _ b hroom).exec_eq (.inl hf), State.append_loaded s (by omega), State.answer_loaded]

/-- An operation answered OK/0x00 in a loaded state, the buffer it leaves being `bs'`. -/
theorem Performs.concat_loaded {s : State} {is : List Instr} {i : Instr} {n : Nat} {bs' : List Byte}
    (h : Performs is s (List.replicate n ⟨.ok, 0x00⟩) (s.loaded bs n))
    (hi : exec i (s.loaded bs n) = .next (s.loaded bs' (n + 1))) :
    Performs (is ++ [i]) s (List.replicate (n + 1) ⟨.ok, 0x00⟩) (s.loaded bs' (n + 1)) := by
  rw [List.replicate_succ']
  refine h.append (.cons hi ?_ (.nil _))
  simp only [State.loaded, List.replicate_succ', List.append_assoc]

/-- LOADB's expansion makes `BUF` the sequence, one response for each operation: CLRB gives the empty sequence, and each PUSH
one byte more. -/
theorem performs_loadOps {s : State} (hf : s.fault = false) (bs : List Byte) (h : bs.length ≤ 64) :
    Performs (loadOps bs) s (List.replicate (bs.length + 1) ⟨.ok, 0x00⟩) (s.loaded bs (bs.length + 1)) := by
  induction bs using List.reverseRecOn with
  | nil => exact .cons (exec_clrb hf) rfl (.nil _)
  | append_singleton bs b ih =>
    have hlt : bs.length < 64 := by simpa using h
    have hstep := (ih (by omega)).concat_loaded (exec_push_loaded hf hlt b _)
    simpa [loadOps] using hstep

theorem loadOps_length (bs : List Byte) : (loadOps bs).length = bs.length + 1 := by simp [loadOps]

/-- Settles O42: `performs_loadOps` on the port. -/
theorem loadbMakesTheBuffer : Obligations.LoadbMakesTheBuffer := by
  intro bs s h hf
  have hrun := (performs_loadOps hf bs h).run_eq
  rw [loadOps_length] at hrun
  exact ⟨_, hrun, s.loaded_bytes h _, s.loaded_len_toNat h _, rfl⟩

/-! ### An operation that does not complete ends a pseudo-instruction (R57) -/

/-- LOADB of more bytes than the buffer holds is LOADB of the first 64, then a PUSH that overflows. -/
theorem runOps_loadOps_overlong {s : State} (hf : s.fault = false) (h : 64 < bs.length) :
    runOps (loadOps bs) s = .next (((s.loaded (bs.take 64) 65).faulted .overflow).answer .fault 0x00) := by
  have hlen : (bs.take 64).length = 64 := by simp; omega
  have hload := performs_loadOps hf (bs.take 64) (by omega)
  rw [hlen] at hload
  have hsplit : loadOps bs = loadOps (bs.take 64) ++ .push bs[64] :: (bs.drop 65).map .push := by
    rw [loadOps, loadOps, List.cons_append, ← List.map_cons, ← List.map_append, List.getElem_cons_drop,
      List.take_append_drop]
  have hfull : (s.loaded (bs.take 64) 65).len.toNat = Config.bufSize :=
    (s.loaded_len_toNat (by omega) 65).trans hlen
  rw [hsplit, hload.runOps_append (fun r hr => List.eq_of_mem_replicate hr ▸ rfl)]
  exact runOps_of_not_ok ((Raises.push _ _ hfull).exec_eq hf) rfl (by simp) _

/-- Settles O45: `runOps_performs` on the port, and the overlong LOADB, whose first 64 bytes are loaded before the overflow. -/
theorem pseudoStopsAtTheFirstFailure : Obligations.PseudoStopsAtTheFirstFailure := by
  refine ⟨fun p s => ?_, fun bs s h hf => ?_⟩
  · obtain ⟨t, rs, hrun, hp, hle, hok, hend⟩ := runOps_performs p.expand s
    have hport := hp.run_eq
    rw [← hp.length_eq] at hport
    exact ⟨t, rs, hrun, hp.responses_eq, hport, hle, hok, hend⟩
  · have hlen : (bs.take 64).length = 64 := by simp; omega
    refine ⟨_, runOps_loadOps_overlong hf h, s.loaded_bytes (by omega) 65, ?_⟩
    simp only [State.loaded, State.answer, State.faulted, State.load, hlen]
    rfl

end Sys2Proof.Machine

/-! ### FRAMEF, FRAMEI and UNFRAME: the codec on a loaded buffer (R57, R95, R96, R111) -/

namespace Sys2Proof.Machine
open Sys2Proof.Claim

variable {s : State} {bs d : List Byte} {k n : Nat}

/-- Overwriting a loaded buffer with as many bytes is loading those. -/
theorem State.overwrite_loaded (s : State) {bs' : List Byte} (h : bs'.length = bs.length) (n : Nat) :
    (s.loaded bs n).overwrite bs' = s.loaded bs' n := by
  simp only [State.loaded, State.overwrite, State.load, h]

/-- An encode operation on `2 + 3k` loaded bytes leaves its function's value `bs'`, a bare command word being passed through. -/
theorem encodeBuffer_loaded {f : List Byte → List Byte} {bs' : List Byte} (hf : s.fault = false)
    (hlen : bs.length = 2 + 3 * k) (hk : 2 + 3 * k ≤ 64) (hfb : f bs = bs') (hlen' : bs'.length = bs.length)
    (hpass : k = 0 → bs' = bs) (n : Nat) : encodeBuffer f (s.loaded bs n) = .next (s.loaded bs' (n + 1)) := by
  have hle : bs.length ≤ 64 := by omega
  have hl : (s.loaded bs n).len.toNat = 2 + 3 * k := (s.loaded_len_toNat hle n).trans hlen
  rw [encodeBuffer_next, hl, s.loaded_bytes hle, hfb, s.overwrite_loaded hlen', s.answer_loaded, s.answer_loaded]
  cases k with
  | zero => exact .inr (.inl ⟨hf, by omega, by rw [hpass rfl]⟩)
  | succ k => exact .inr (.inr (.inl ⟨hf, by omega, by omega, rfl⟩))

/-- On the port: LOADB's expansion, then one operation that ends in `t`. -/
theorem run_loadOps_concat {i : Instr} {t : State} (hf : s.fault = false) (hlen : bs.length = n) (hn : n ≤ 64)
    (hi : exec i (s.loaded bs (n + 1)) = .next t) : run (n + 2) (queued (loadOps bs ++ [i]) s) = .next t := by
  subst hlen
  obtain ⟨r, hr⟩ := exec_responses hi
  have hp := (performs_loadOps hf bs hn).append (.cons hi hr (.nil t))
  simpa [loadOps_length] using hp.run_eq

/-- Filling the slots after the data words gives the framed words (R90, R96). -/
theorem fillSlots_withSlots (d : List Byte) : fillSlots (withSlots d) = frameWords d := by
  induction d using frameWords.induct with
  | case1 d0 d1 d ih => simp [withSlots, fillSlots, frameWords, ih]
  | case2 d h => rw [withSlots.eq_2 d h, frameWords.eq_2 d h]; rfl

/-- The fill reading makes the frame of data with a placeholder after each word (R95). -/
theorem enc_withSlots (c0 c1 : Byte) (d : List Byte) : enc (c0 :: c1 :: withSlots d) = frame [c0, c1] d := by
  simp [enc, frame, fillSlots_withSlots]

/-- The insert reading makes the frame of packed data in a buffer with room for its checksums (R96). -/
theorem encI_packed (c0 c1 : Byte) (hd : d.length = 2 * k) (p : Byte) :
    encI (c0 :: c1 :: d ++ List.replicate k p) = frame [c0, c1] d := by
  have hlen : (c0 :: c1 :: d ++ List.replicate k p).length = 2 + 3 * k := by simp; omega
  cases k with
  | zero => rw [List.eq_nil_of_length_eq_zero hd]; rfl
  | succ k =>
    have hpass : ¬ encPassesThrough (2 + 3 * (k + 1)) = true := by rw [encPassesThrough_iff]; omega
    have hwords : encWords (2 + 3 * (k + 1)) = k + 1 := by rw [encWords_eq]; omega
    rw [encI, hlen, if_neg hpass, hwords]
    simp [Config.hdr, Config.wordBytes, ← hd]

theorem withSlots_length (hd : d.length = 2 * k) : (withSlots d).length = 3 * k := by
  rw [← fillSlots_length, fillSlots_withSlots, frameWords_length hd]

theorem frame_length (c0 c1 : Byte) (hd : d.length = 2 * k) : (frame [c0, c1] d).length = 2 + 3 * k := by
  rw [frame, List.length_append, frameWords_length hd]; rfl

/-- Settles O43: both expansions load as many bytes, and both readings of encode turn what they load into the frame. -/
theorem framefAndFrameiAgree : Obligations.FramefAndFrameiAgree := by
  intro c0 c1 d k s hd hk hf
  have hframe := frame_length c0 c1 hd
  have hnil (h : k = 0) : d = [] := List.eq_nil_of_length_eq_zero (by omega)
  have hslots : (c0 :: c1 :: withSlots d).length = 2 + 3 * k := by simp [withSlots_length hd]; omega
  have hpacked : (c0 :: c1 :: d ++ List.replicate k placeholder).length = 2 + 3 * k := by simp; omega
  have hencf := encodeBuffer_loaded hf hslots hk (enc_withSlots c0 c1 d) (hframe.trans hslots.symm)
    (fun h => by rw [hnil h]; rfl) (2 + 3 * k + 1)
  have henci := encodeBuffer_loaded hf hpacked hk (encI_packed c0 c1 hd placeholder) (hframe.trans hpacked.symm)
    (fun h => by rw [hnil h, h]; rfl) (2 + 3 * k + 1)
  have hrunf := run_loadOps_concat (i := .encf) hf hslots hk hencf
  have hruni := run_loadOps_concat (i := .enci) hf hpacked hk henci
  rw [show 2 + 3 * k + 2 = 4 + 3 * k by omega] at hrunf hruni
  refine ⟨_, hrunf, ?_, s.loaded_bytes (hframe ▸ hk) _, rfl⟩
  rwa [Pseudo.expand, hd, Config.wordBytes, Nat.mul_div_cancel_left k (by decide)]

/-- A frame's words carry their own checksums (R105). -/
theorem checksumsMatch_frameWords (d : List Byte) : checksumsMatch (frameWords d) = true := by
  induction d using frameWords.induct with
  | case1 d0 d1 d ih => simp [frameWords, checksumsMatch, ih]
  | case2 d h => rw [frameWords.eq_2 d h]; rfl

/-- Stripping the checksums of a frame's words gives the data back (R111). -/
theorem dataBytes_frameWords (hd : d.length = 2 * k) : dataBytes (frameWords d) = d := by
  induction k generalizing d with
  | zero => rw [List.eq_nil_of_length_eq_zero hd]; rfl
  | succ k ih =>
    match d, hd with
    | d0 :: d1 :: d, hd => simp [frameWords, dataBytes, ih (d := d) (by simp at hd; omega)]

/-- DEC of the framed words of `d` leaves `d` and clears `CKERR`. -/
theorem exec_dec_frameWords (hf : s.fault = false) (hd : d.length = 2 * k) (hk : 3 * k ≤ 64) (n : Nat) :
    exec .dec (s.loaded (frameWords d) n) = .next ((s.loaded d (n + 1)).setCkerr false) := by
  have hlen := frameWords_length hd
  have hl : (s.loaded (frameWords d) n).len.toNat = 3 * k := (s.loaded_len_toNat (by omega) n).trans hlen
  have hb : (s.loaded (frameWords d) n).bytes = frameWords d := s.loaded_bytes (by omega) n
  refine execDec_next.mpr (.inr (.inr (.inl ⟨hf, by omega, by rw [hb, checksumsMatch_frameWords], ?_⟩)))
  rw [hb, dataBytes_frameWords hd, ← s.answer_loaded]
  rfl

/-- Settles O44: the frame's words are loaded, and DEC strips them to the data. -/
theorem unframeReturnsTheData : Obligations.UnframeReturnsTheData := by
  intro c0 c1 d k s hd hk hf
  have hrun := run_loadOps_concat hf (frameWords_length hd) hk (exec_dec_frameWords hf hd hk (3 * k + 1))
  rw [Nat.add_comm (3 * k)] at hrun
  exact ⟨_, hrun, s.loaded_bytes (by omega) (2 + 3 * k), rfl⟩

end Sys2Proof.Machine

/-! ### What the operations share: the layout of R50 with shifts, a word run, a malformed word -/

namespace Sys2Proof

/-- The layout of R50 with shifts: each bit of the word is a bit of the one field that stands there. -/
theorem wordOf_eq_or (f : Fields) :
    wordOf f = f.op.setWidth 24 <<< 20 ||| f.rsv.setWidth 24 <<< 16 ||| f.a.setWidth 24 <<< 8 ||| f.b.setWidth 24 := by
  ext i hi
  simp only [wordOf, BitVec.getElem_or, BitVec.getElem_shiftLeft, BitVec.getElem_setWidth]
  grind

@[simp] theorem Instr.fields_rsv (i : Instr) : i.fields.rsv = 0 := by
  cases i <;> rfl

/-- An instruction's word from its operation code and its two operand fields, `rsv` being 0 (R51, R56). -/
theorem encode_eq_or (i : Instr) :
    encode i = i.fields.op.setWidth 24 <<< 20 ||| i.fields.a.setWidth 24 <<< 8 ||| i.fields.b.setWidth 24 := by
  rw [encode, wordOf_eq_or, Instr.fields_rsv]
  simp

end Sys2Proof

namespace Sys2Proof.Machine
open Sys2Proof.Claim

/-- The word of an instruction runs it, in every state. -/
theorem spells_encode (i : Instr) : Spells (encode i) i := fun s => by
  rw [step_issuing, serveRequest, decode_encode]

/-- A condition whose breach makes a word illegal is one whose breach faults, or is refused (R53, R164). -/
theorem malformedFaults_of_illegalWord {op : BitVec 4} {zeros : ReqWord → Prop}
    (h : ∀ w, w.extractLsb' 20 4 = op → ¬ zeros w → IllegalWord w) : MalformedFaults op zeros := by
  intro s w hop hz
  rw [step_issuing_of_illegalWord (h w hop hz)]
  exact ⟨fun hf => illegalRequest_next.mpr (.inr ⟨hf, rfl⟩), fun hf => illegalRequest_next.mpr (.inl ⟨hf, rfl⟩)⟩

end Sys2Proof.Machine

/-! ### The checksum: one iteration of R80, the table of R84, the word's two bytes (R81, R86) -/

namespace Sys2Proof.Machine

/-- The top bit of a byte on numbers. -/
theorem getLsbD_seven (acc : Byte) : acc.getLsbD 7 = decide (128 ≤ acc.toNat) :=
  acc.msb_eq_getLsbD_last.symm.trans acc.msb_eq_decide

theorem shiftLeft_one_toNat (acc : Byte) : (acc <<< 1).toNat = 2 * acc.toNat % 256 := by
  rw [BitVec.toNat_shiftLeft, Nat.shiftLeft_eq, Nat.mul_comm]

theorem crc8Shift_toNat (acc : Byte) : (crc8Shift acc).toNat =
    if 128 ≤ acc.toNat then Nat.xor (2 * acc.toNat % 256) 0x31 else 2 * acc.toNat % 256 := by
  simp only [crc8Shift, getLsbD_seven, decide_eq_true_eq, ← shiftLeft_one_toNat]
  split <;> rfl

/-- The iteration as one exclusive or: the polynomial is taken when the top bit is set. -/
theorem crc8Shift_eq_xor (acc : Byte) : crc8Shift acc = acc <<< 1 ^^^ if acc.getLsbD 7 then Config.poly else 0 := by
  rw [crc8Shift]
  split
  · rfl
  · exact BitVec.xor_zero.symm

/-- The iteration is linear over exclusive or: where both top bits are set the two polynomials cancel. -/
theorem crc8Shift_xor (x y : Byte) : crc8Shift (x ^^^ y) = crc8Shift x ^^^ crc8Shift y := by
  have hpoly (p q : Bool) : (if p ^^ q then Config.poly else 0) =
      (if p then Config.poly else 0) ^^^ if q then Config.poly else 0 := by
    cases p <;> cases q <;> rfl
  rw [crc8Shift_eq_xor, crc8Shift_eq_xor x, crc8Shift_eq_xor y, BitVec.shiftLeft_xor_distrib, BitVec.getLsbD_xor, hpoly]
  ac_rfl

/-- The polynomial is odd, so the bit shifted out is found again in the lowest place. -/
theorem crc8Shift_getLsbD_zero (acc : Byte) : (crc8Shift acc).getLsbD 0 = acc.getLsbD 7 := by
  have hpoly (p : Bool) : (if p then Config.poly else 0).getLsbD 0 = p := by cases p <;> rfl
  rw [crc8Shift_eq_xor, BitVec.getLsbD_xor, hpoly, BitVec.getLsbD_shiftLeft]
  simp

/-- The iteration loses nothing: the lowest bit of its result tells the top bit, and the others are shifted. -/
theorem crc8Shift_injective : Function.Injective crc8Shift := by
  intro x y h
  have htop : x.getLsbD 7 = y.getLsbD 7 := by rw [← crc8Shift_getLsbD_zero, h, crc8Shift_getLsbD_zero]
  have hlow : x <<< 1 = y <<< 1 := by
    rw [crc8Shift_eq_xor, crc8Shift_eq_xor y, htop] at h
    exact (BitVec.xor_left_inj _).mp h
  have hlow := congrArg BitVec.toNat hlow
  rw [shiftLeft_one_toNat, shiftLeft_one_toNat] at hlow
  rw [getLsbD_seven, getLsbD_seven, decide_eq_decide] at htop
  exact BitVec.eq_of_toNat_eq (by omega)

/-- Settles O1: the iteration on numbers is `crc8Shift_toNat`; the other two clauses are the definitions, 8 iterations for each
byte and 0xFF at the start. -/
theorem checksumFollowsTheBitAlgorithm : Obligations.ChecksumFollowsTheBitAlgorithm :=
  ⟨crc8Shift_toNat, fun _ _ => rfl, fun _ _ => rfl⟩

/-! #### The table -/

theorem crcTable_eq (x : Byte) : crcTable x = crc8Shift^[8] x := by
  rw [crcTable, crc8Byte_eq]
  exact congrArg _ BitVec.zero_xor

/-- The byte step uses the accumulator and the byte only through their exclusive or (R84). -/
theorem crc8Byte_eq_crcTable (acc x : Byte) : crc8Byte acc x = crcTable (acc ^^^ x) := by
  rw [crcTable_eq, crc8Byte_eq]

theorem crc8Word_eq_byTable (b0 b1 : Byte) : crc8Word b0 b1 = crc8WordByTable b0 b1 := by
  rw [crc8Word, crc8Byte_eq_crcTable, crc8Byte_eq_crcTable, crc8WordByTable]

/-- Eight linear iterations are linear. -/
theorem crcTable_xor (x y : Byte) : crcTable (x ^^^ y) = crcTable x ^^^ crcTable y := by
  simp only [crcTable_eq]
  exact Function.Semiconj₂.iterate crc8Shift_xor 8 x y

/-- Eight iterations lose nothing, and an injective map of the bytes to themselves is a permutation. -/
theorem crcTable_bijective : Function.Bijective crcTable := by
  rw [funext crcTable_eq]
  exact Finite.injective_iff_bijective.mp (crc8Shift_injective.iterate 8)

theorem crcTable_eq_zero_iff {x : Byte} : crcTable x = 0 ↔ x = 0 :=
  crcTable_bijective.injective.eq_iff' (by decide)

/-- Settles O2, by the four lemmas on the table. -/
theorem tableFormEqualsBitForm : Obligations.TableFormEqualsBitForm :=
  ⟨crc8Byte_eq_crcTable, crc8Word_eq_byTable, crcTable_bijective, crcTable_xor⟩

/-! #### Words -/

theorem xor_left_bijective (x : Byte) : Function.Bijective (x ^^^ ·) :=
  Function.Involutive.bijective fun y => by rw [← BitVec.xor_assoc, BitVec.xor_self, BitVec.zero_xor]

theorem crc8Word_bijective_right (b0 : Byte) : Function.Bijective fun b1 => crc8Word b0 b1 := by
  simp only [crc8Word_eq_byTable]
  exact crcTable_bijective.comp (xor_left_bijective _)

theorem crc8Word_bijective_left (b1 : Byte) : Function.Bijective fun b0 => crc8Word b0 b1 := by
  have hform (b0 : Byte) : crc8Word b0 b1 = crcTable (b1 ^^^ crcTable (Config.init ^^^ b0)) := by
    rw [crc8Word_eq_byTable, crc8WordByTable, BitVec.xor_comm]
  simp only [hform]
  exact crcTable_bijective.comp ((xor_left_bijective b1).comp (crcTable_bijective.comp (xor_left_bijective _)))

/-- A word with a given checksum is told by its first byte, which can be any: the second byte is then the one that gives that
checksum. -/
theorem bijective_fst_of_crc8Word_eq (c : Byte) :
    Function.Bijective fun p : { p : Byte × Byte // crc8Word p.1 p.2 = c } => p.1.1 := by
  constructor
  · rintro ⟨⟨b0, b1⟩, hb⟩ ⟨⟨_, b1'⟩, hb'⟩ rfl
    cases (crc8Word_bijective_right b0).injective (hb.trans hb'.symm)
    rfl
  · intro b0
    obtain ⟨b1, hb⟩ := (crc8Word_bijective_right b0).surjective c
    exact ⟨⟨(b0, b1), hb⟩, rfl⟩

/-- Settles O3: the word checksum is the table and exclusive ors composed, each a bijection, so each first byte has one second
byte for a given checksum. -/
theorem checksumIsABijectionInEachByte : Obligations.ChecksumIsABijectionInEachByte :=
  ⟨crc8Word_bijective_right, crc8Word_bijective_left, fun c =>
    (Nat.card_eq_of_bijective _ (bijective_fst_of_crc8Word_eq c)).trans card_byte⟩

/-- The table is linear, so an error pattern passes through the word checksum apart from the data (R86 (b)). -/
theorem crc8Word_xor (b0 b1 e0 e1 : Byte) :
    crc8Word (b0 ^^^ e0) (b1 ^^^ e1) = crc8Word b0 b1 ^^^ crcError e0 e1 :=
  calc crc8Word (b0 ^^^ e0) (b1 ^^^ e1)
      = crcTable (crcTable (Config.init ^^^ b0 ^^^ e0) ^^^ (b1 ^^^ e1)) := by
        rw [crc8Word_eq_byTable, crc8WordByTable, BitVec.xor_assoc]
    _ = crcTable (crcTable (Config.init ^^^ b0) ^^^ b1 ^^^ (crcTable e0 ^^^ e1)) := by
        rw [crcTable_xor (_ ^^^ b0)]; ac_rfl
    _ = crc8Word b0 b1 ^^^ crcError e0 e1 := by
        rw [crcTable_xor (_ ^^^ b1), crc8Word_eq_byTable, crc8WordByTable, crcError]

theorem crcError_eq_zero_iff {e0 e1 : Byte} : crcError e0 e1 = 0 ↔ e1 = crcTable e0 := by
  rw [crcError, crcTable_eq_zero_iff, eq_comm (a := e1)]
  exact BitVec.xor_eq_zero_iff

/-- Settles O4: linearity of the table, and its one zero. -/
theorem checksumIsAffine : Obligations.ChecksumIsAffine :=
  ⟨crc8Word_xor, fun _ _ => crcError_eq_zero_iff⟩

end Sys2Proof.Machine

/-! ### CRCW (R85) -/

namespace Sys2Proof.Machine
open Sys2Proof.Claim

theorem encode_crcw (b0 b1 : Byte) :
    encode (.crcw b0 b1) = 0x100000 ||| (b0.setWidth 24 <<< 8) ||| b1.setWidth 24 := by
  rw [encode_eq_or]
  simp [Instr.fields]

/-- Settles O5: CRCW completes in its own state; its word is the encoder's, and a non-zero `rsv` is the third condition of
R53. -/
theorem crcwAnswersTheChecksum : Obligations.CrcwAnswersTheChecksum := by
  refine ⟨fun s b0 b1 hf => (Completes.crcw s b0 b1).exec_eq (.inl hf), fun b0 b1 s hf => exec_of_fault hf (by simp),
    fun b0 b1 => ?_, ?_, by decide +kernel⟩
  · rw [← encode_crcw]
    exact spells_encode (.crcw b0 b1)
  · exact malformedFaults_of_illegalWord fun _ _ hrsv => .inr (.inr (.inl hrsv))

end Sys2Proof.Machine

/-! ### The encode functions byte by byte (R90, R96): what stands at each offset of `enc` and of `encI` -/

namespace Sys2Proof.Machine

variable {s d q : List Byte} {k : Nat}

/-- Each slot of a filled body holds the checksum of the two bytes before it (R90). -/
theorem fillSlots_getElem?_slot {j : Nat} (h : 3 * j + 2 < s.length) :
    (fillSlots s)[3 * j + 2]? = some (crc8Word (s.getD (3 * j) 0) (s.getD (3 * j + 1) 0)) := by
  induction j generalizing s with
  | zero =>
    match s, h with
    | d0 :: d1 :: p :: body, _ => simp [fillSlots]
  | succ j ih =>
    match s, h with
    | d0 :: d1 :: p :: body, h =>
      have hbody : 3 * j + 2 < body.length := by simp only [List.length_cons] at h; omega
      simpa [fillSlots, Nat.mul_succ] using ih hbody

/-- Filling leaves every byte that is no slot (R90). -/
theorem fillSlots_getElem?_of_not_slot {i : Nat} (h : i % 3 ≠ 2) : (fillSlots s)[i]? = s[i]? := by
  induction s using fillSlots.induct generalizing i with
  | case1 d0 d1 p body ih =>
    match i, h with
    | 0, _ => rfl
    | 1, _ => rfl
    | i + 3, h => simpa [fillSlots] using ih (i := i) (by omega)
  | case2 rest hrest => rw [fillSlots.eq_2 rest hrest]

/-- R91: a sequence with no data word passes through. -/
theorem enc_of_length_le (h : s.length ≤ 2) : enc s = s := by
  match s, h with
  | [], _ => rfl
  | [_], _ => rfl
  | [_, _], _ => rfl

theorem enc_getElem?_slot {j : Nat} (h : 4 + 3 * j < s.length) :
    (enc s)[4 + 3 * j]? = some (crc8Word (s.getD (2 + 3 * j) 0) (s.getD (3 + 3 * j) 0)) := by
  match s, h with
  | [_], h => exact absurd h (by simp)
  | c0 :: c1 :: body, h =>
    have hbody : 3 * j + 2 < body.length := by simp only [List.length_cons] at h; omega
    rw [show 4 + 3 * j = 3 * j + 2 + 1 + 1 by omega, show 2 + 3 * j = 3 * j + 1 + 1 by omega,
      show 3 + 3 * j = 3 * j + 1 + 1 + 1 by omega]
    simpa [enc] using fillSlots_getElem?_slot hbody

theorem enc_getElem?_of_not_slot {i : Nat} (h : ¬ ∃ j, i = 4 + 3 * j) : (enc s)[i]? = s[i]? := by
  match s, i with
  | [], _ => rfl
  | [_], _ => rfl
  | _ :: _ :: _, 0 => rfl
  | _ :: _ :: _, 1 => rfl
  | c0 :: c1 :: body, i + 2 =>
    have hslot : i % 3 ≠ 2 := fun hi => h ⟨i / 3, by omega⟩
    simpa [enc] using fillSlots_getElem?_of_not_slot hslot

/-- Settles O10, by the lemmas on the bytes of `enc`, which need no premise on the length. -/
theorem encWritesExactlyTheSlots : Obligations.EncWritesExactlyTheSlots :=
  fun s _ => ⟨enc_length s, enc_of_length_le, fun _ => enc_getElem?_slot, fun _ => enc_getElem?_of_not_slot⟩

/-- The fill reading reads no slot: sequences of one length that agree elsewhere have the same frame. -/
theorem enc_congr {s' : List Byte} (hl : s.length = s'.length) (h : ∀ i, (¬ ∃ j, i = 4 + 3 * j) → s[i]? = s'[i]?) :
    enc s = enc s' := by
  refine List.ext_getElem? fun i => ?_
  by_cases hslot : ∃ j, i = 4 + 3 * j
  · obtain ⟨j, rfl⟩ := hslot
    by_cases hj : 4 + 3 * j < s.length
    · have h0 : s[2 + 3 * j]? = s'[2 + 3 * j]? := h _ fun ⟨_, _⟩ => by omega
      have h1 : s[3 + 3 * j]? = s'[3 + 3 * j]? := h _ fun ⟨_, _⟩ => by omega
      rw [enc_getElem?_slot hj, enc_getElem?_slot (hl ▸ hj)]
      simp only [List.getD_eq_getElem?_getD, h0, h1]
    · rw [List.getElem?_eq_none (by simpa using hj), List.getElem?_eq_none (by simpa [← hl] using hj)]
  · rw [enc_getElem?_of_not_slot hslot, enc_getElem?_of_not_slot hslot, h i hslot]

/-! #### The insert reading -/

/-- Framed word `j` of packed data: its two bytes, then their checksum (R58). -/
theorem frameWords_getElem? {j : Nat} (h : 2 * j + 1 < d.length) :
    (frameWords d)[3 * j]? = d[2 * j]? ∧ (frameWords d)[3 * j + 1]? = d[2 * j + 1]? ∧
    (frameWords d)[3 * j + 2]? = some (crc8Word (d.getD (2 * j) 0) (d.getD (2 * j + 1) 0)) := by
  induction j generalizing d with
  | zero =>
    match d, h with
    | d0 :: d1 :: d, _ => simp [frameWords]
  | succ j ih =>
    match d, h with
    | d0 :: d1 :: d, h =>
      have hd : 2 * j + 1 < d.length := by simp only [List.length_cons] at h; omega
      simpa [frameWords, Nat.mul_succ] using ih hd

theorem encWords_two_add (k : Nat) : encWords (2 + 3 * k) = k := by
  rw [encWords_eq]; omega

/-- On `2 + 3k` bytes the insert reading keeps the command word and frames the `2k` bytes behind it (R96). -/
theorem encI_eq_append (h : s.length = 2 + 3 * k) : encI s = s.take 2 ++ frameWords ((s.drop 2).take (2 * k)) := by
  by_cases hpass : encPassesThrough s.length = true
  · have hs : s.length ≤ 2 := encPassesThrough_iff.mp hpass
    rw [encI, if_pos hpass, List.drop_eq_nil_of_le hs, List.take_of_length_le hs, List.take_nil]
    exact (List.append_nil s).symm
  · rw [encI, if_neg hpass, h, encWords_two_add]
    rfl

/-- The insert reading makes the frame of packed data, whatever the spare bytes behind it (R95, R96). -/
theorem encI_packed_append (c0 c1 : Byte) (hd : d.length = 2 * k) (hq : q.length = k) :
    encI (c0 :: c1 :: d ++ q) = frame [c0, c1] d := by
  have hlen : (c0 :: c1 :: d ++ q).length = 2 + 3 * k := by simp; omega
  rw [encI_eq_append hlen, ← hd]
  simp [frame]

/-- The insert reading reads the command word and the packed data only: sequences of one admitted length that agree there have
the same frame. -/
theorem encI_congr {s' : List Byte} (hs : s.length = 2 + 3 * k) (hs' : s'.length = 2 + 3 * k)
    (h : ∀ i < 2 + 2 * k, s[i]? = s'[i]?) : encI s = encI s' := by
  have htake : s.take (2 + 2 * k) = s'.take (2 + 2 * k) := List.ext_getElem? fun i => by
    simp only [List.getElem?_take]
    split
    · exact h i ‹_›
    · rfl
  have hcmd : s.take 2 = s'.take 2 := by
    simpa [List.take_take] using congrArg (List.take 2) htake
  have hdata : (s.drop 2).take (2 * k) = (s'.drop 2).take (2 * k) := by
    simpa [List.drop_take] using congrArg (List.drop 2) htake
  rw [encI_eq_append hs, encI_eq_append hs', hcmd, hdata]

theorem encI_getElem?_command (h : s.length = 2 + 3 * k) {i : Nat} (hi : i < 2) : (encI s)[i]? = s[i]? := by
  rw [encI_eq_append h, List.getElem?_append_left (by simp; omega), List.getElem?_take_of_lt hi]

/-- Where the insert reading puts packed data word `j`, and its checksum (R96). -/
theorem encI_getElem?_word (h : s.length = 2 + 3 * k) {j : Nat} (hj : j < k) :
    (encI s)[2 + 3 * j]? = s[2 + 2 * j]? ∧ (encI s)[3 + 3 * j]? = s[3 + 2 * j]? ∧
    (encI s)[4 + 3 * j]? = some (crc8Word (s.getD (2 + 2 * j) 0) (s.getD (3 + 2 * j) 0)) := by
  have htake : (s.take 2).length = 2 := by simp; omega
  have hskip (i : Nat) : (encI s)[2 + i]? = (frameWords ((s.drop 2).take (2 * k)))[i]? := by
    rw [encI_eq_append h, List.getElem?_append_right (by omega), htake, Nat.add_sub_cancel_left]
  have hdata {i : Nat} (hi : i < 2 * k) : ((s.drop 2).take (2 * k))[i]? = s[2 + i]? := by
    rw [List.getElem?_take_of_lt hi, List.getElem?_drop]
  have hword := frameWords_getElem? (d := (s.drop 2).take (2 * k)) (j := j) (by simp; omega)
  rw [← hskip, ← hskip, ← hskip, List.getD_eq_getElem?_getD, List.getD_eq_getElem?_getD, hdata (by omega),
    hdata (by omega)] at hword
  simpa only [List.getD_eq_getElem?_getD, show 3 + 3 * j = 2 + (3 * j + 1) by omega,
    show 3 + 2 * j = 2 + (2 * j + 1) by omega, show 4 + 3 * j = 2 + (3 * j + 2) by omega] using hword

/-! #### Both readings, and the literal procedure (R95, R96) -/

/-- Filling the slots after the data words gives the framed words, whatever the slots held (R95). -/
theorem fillSlots_slotted {d p : List Byte} (h : d.length = 2 * p.length) :
    fillSlots (Claim.slotted d p) = frameWords d := by
  induction p generalizing d with
  | nil => rw [List.eq_nil_of_length_eq_zero h]; rfl
  | cons p0 p ih =>
    match d, h with
    | d0 :: d1 :: d, h =>
      have hd : d.length = 2 * p.length := by simp only [List.length_cons] at h; omega
      simp [Claim.slotted, fillSlots, frameWords, ih hd]

/-- Settles O8: both readings make the frame; filling it again changes nothing, because filling is idempotent and the frame is
what filling makes. -/
theorem bothReadingsGiveTheSameFrame : Obligations.BothReadingsGiveTheSameFrame := by
  refine ⟨fun c0 c1 d p q hd hq => ?_, enc_enc⟩
  have henc : enc (c0 :: c1 :: Claim.slotted d p) = frame [c0, c1] d := by simp [enc, frame, fillSlots_slotted hd]
  exact ⟨henc, encI_packed_append c0 c1 hd hq, by rw [← henc, enc_enc]⟩

/-- One insertion right behind the two bytes `x` and `y`. -/
theorem insertSlot_append {pre : List Byte} {i : Nat} (hi : i = pre.length + 2) (x y : Byte) (r : List Byte) :
    insertSlot (pre ++ x :: y :: r) i = pre ++ x :: y :: crc8Word x y :: r.dropLast := by
  subst hi
  simp [insertSlot, List.take_length_add_append, List.drop_length_add_append, List.getD_eq_getElem?_getD]

/-- The insertions from word `m` on frame the packed data that stands behind the words framed before; each pushes one spare
byte off the end. -/
theorem foldl_insertSlot {pre d q : List Byte} {m : Nat} (hpre : pre.length = 2 + 3 * m) (hd : d.length = 2 * k)
    (hq : q.length = k) :
    (List.range' m k).foldl (fun t j => insertSlot t (4 + 3 * j)) (pre ++ (d ++ q)) = pre ++ frameWords d := by
  induction k generalizing pre d q m with
  | zero => rw [List.eq_nil_of_length_eq_zero hd, List.eq_nil_of_length_eq_zero hq]; rfl
  | succ k ih =>
    match d, hd with
    | x :: y :: d, hd =>
      have hd : d.length = 2 * k := by simp only [List.length_cons] at hd; omega
      have hdrop : (d ++ q).dropLast = d ++ q.dropLast := List.dropLast_append_of_ne_nil (by rintro rfl; simp at hq)
      have hone : insertSlot (pre ++ (x :: y :: d ++ q)) (4 + 3 * m) =
          (pre ++ [x, y, crc8Word x y]) ++ (d ++ q.dropLast) := by
        rw [List.cons_append, List.cons_append, insertSlot_append (by omega), hdrop, List.append_assoc]; rfl
      rw [List.range'_succ, List.foldl_cons, hone,
        ih (by simp only [List.length_append, hpre, List.length_cons, List.length_nil]; omega) hd (by simp [hq]),
        List.append_assoc]
      rfl

/-- Settles O9: the insertions turn the command word, packed data and spare bytes into what `encI` gives. -/
theorem literalInsertionEqualsEncI : Obligations.LiteralInsertionEqualsEncI := by
  intro s hs
  by_cases hpass : encPassesThrough s.length = true
  · rw [encInPlace, encI, if_pos hpass, if_pos hpass]
  · have h2 : ¬ s.length ≤ 2 := mt encPassesThrough_iff.mpr hpass
    obtain ⟨k, hk⟩ : ∃ k, s.length = 2 + 3 * k := ⟨(s.length - 2) / 3, by omega⟩
    have hfold := foldl_insertSlot (pre := s.take 2) (d := (s.drop 2).take (2 * k)) (q := (s.drop 2).drop (2 * k))
      (m := 0) (k := k) (by simp; omega) (by simp; omega) (by simp; omega)
    rw [List.take_append_drop, List.take_append_drop] at hfold
    rw [encInPlace, if_neg hpass, hk, encWords_two_add, encI_eq_append hk, List.range_eq_range']
    exact hfold

end Sys2Proof.Machine

/-! ### ENCF and ENCI (R93, R94) -/

namespace Sys2Proof.Machine
open Sys2Proof.Claim

variable {s s' : State}

/-- An operation with no operand has one legal word; any other with its code faults, or is refused (R51, R53). -/
theorem malformedFaults_of_format_N {op : BitVec 4} (h : formatOf op = some .N) :
    MalformedFaults op (· = wordOf ⟨op, 0, 0, 0⟩) := by
  refine malformedFaults_of_illegalWord fun w hop hz => illegalWord_iff.mpr fun hlegal => hz ?_
  have hfop : (fieldsOf w).op = op := hop
  obtain ⟨fmt, hfmt, hrsv, ha, hb⟩ := Fields.check_eq_none_iff.mp hlegal
  rw [hfop, h] at hfmt
  cases hfmt
  calc w = wordOf (fieldsOf w) := (wordOf_fieldsOf w).symm
    _ = wordOf ⟨op, 0, 0, 0⟩ := by rw [wordOf, hfop, hrsv, ha rfl, hb rfl]; rfl

/-- The checksum of two bytes that exist. -/
theorem checksumAt_of_lt {i : Nat} (h : i + 1 < s.len.toNat) :
    checksumAt s i = some (crc8Word (s.bytes.getD i 0) (s.bytes.getD (i + 1) 0)) := by
  simp [checksumAt, List.getD_eq_getElem?_getD, State.bytes_getElem?, State.byte?_of_lt s h,
    State.byte?_of_lt s (Nat.lt_of_succ_lt h)]

/-- One byte after an overwrite with as many bytes as there are. -/
theorem State.overwrite_byte? (s : State) {bs : List Byte} (h : bs.length = s.len.toNat) (i : Nat) :
    (s.overwrite bs).byte? i = bs[i]? := by
  rw [← State.bytes_getElem?, s.overwrite_bytes h]

/-- Neither encode function changes the length of the buffer it is applied to. -/
theorem enc_bytes_length (s : State) : (enc s.bytes).length = s.len.toNat := by simp

theorem encI_bytes_length (h3 : (s.len.toNat - 2) % 3 = 0) : (encI s.bytes).length = s.len.toNat := by
  rw [encI_length (.inr (by rwa [s.bytes_length])), s.bytes_length]

/-- An admitted length as command word and words. -/
theorem bytes_length_eq (h2 : 2 < s.len.toNat) (h3 : (s.len.toNat - 2) % 3 = 0) :
    s.bytes.length = 2 + 3 * ((s.len.toNat - 2) / 3) := by
  rw [s.bytes_length]; omega

/-- Settles O6: the offsets of `enc` said of the buffer, the length fault and the pass-through; the word 0x200000 is the
encoder's, and the one legal word with its operation code. -/
theorem encfFillsTheSlots : Obligations.EncfFillsTheSlots := by
  refine ⟨fun s hf h2 => (Completes.encPass s .encf (.inl rfl) h2).exec_eq (.inl hf),
    fun s hf h2 h3 => (Raises.enc s .encf (.inl rfl) h2 h3).exec_eq hf,
    fun s hf h2 h3 => ⟨_, (Completes.encf s h2 h3).exec_eq (.inl hf), rfl, fun j hj => ?_, fun a ha => ?_,
      s.overwrite_bytes (enc_bytes_length s)⟩,
    fun s hf => exec_of_fault hf (by simp), spells_encode .encf, malformedFaults_of_format_N rfl⟩
  · rw [State.answer_byte?, s.overwrite_byte? (enc_bytes_length s), enc_getElem?_slot (by simpa using hj),
      checksumAt_of_lt (by omega), show 2 + 3 * j + 1 = 3 + 3 * j by omega]
  · rw [State.answer_byte?, s.overwrite_byte? (enc_bytes_length s)]
    by_cases hlt : a < s.len.toNat
    · have hslot : ¬ ∃ j, a = 4 + 3 * j := fun ⟨j, hj⟩ => ha ⟨j, hj, hlt⟩
      rw [enc_getElem?_of_not_slot hslot, State.bytes_getElem?]
    · have hle := Nat.le_of_not_lt hlt
      rw [State.byte?_of_le s hle, List.getElem?_eq_none (by simpa using hle)]

/-- Settles O7: the offsets of `encI` said of the buffer, the length fault and the pass-through; the word 0x300000 is the
encoder's, and the one legal word with its operation code. -/
theorem enciInsertsTheChecksums : Obligations.EnciInsertsTheChecksums := by
  refine ⟨fun s hf h2 => (Completes.encPass s .enci (.inr rfl) h2).exec_eq (.inl hf),
    fun s hf h2 h3 => (Raises.enc s .enci (.inr rfl) h2 h3).exec_eq hf,
    fun s hf h2 h3 => ⟨_, (Completes.enci s h2 h3).exec_eq (.inl hf), rfl, fun j hj => ?_, fun a ha => ?_,
      s.overwrite_bytes (encI_bytes_length h3)⟩,
    fun s hf => exec_of_fault hf (by simp), spells_encode .enci, malformedFaults_of_format_N rfl⟩
  · have hword := encI_getElem?_word (bytes_length_eq h2 h3) (j := j) (by omega)
    simp only [State.answer_byte?, s.overwrite_byte? (encI_bytes_length h3)]
    rwa [checksumAt_of_lt (by omega), show 2 + 2 * j + 1 = 3 + 2 * j by omega, ← State.bytes_getElem?,
      ← State.bytes_getElem?]
  · rw [State.answer_byte?, s.overwrite_byte? (encI_bytes_length h3)]
    rcases ha with ha | ha
    · rw [encI_getElem?_command (bytes_length_eq h2 h3) ha, State.bytes_getElem?]
    · rw [State.byte?_of_le s ha, List.getElem?_eq_none (by rwa [encI_bytes_length h3])]

/-- Settles O11: neither function reads those bytes, and each operation leaves its function of the old bytes. -/
theorem placeholderBytesDoNotMatter : Obligations.PlaceholderBytesDoNotMatter := by
  intro s s' t t' hf hf' hl h2 h3
  have h2' : 2 < s'.len.toNat := hl ▸ h2
  have h3' : (s'.len.toNat - 2) % 3 = 0 := hl ▸ h3
  constructor
  · intro h ht ht'
    cases ((Completes.encf s h2 h3).exec_eq (.inl hf)).symm.trans ht
    cases ((Completes.encf s' h2' h3').exec_eq (.inl hf')).symm.trans ht'
    rw [State.answer_bytes, State.answer_bytes, s.overwrite_bytes (enc_bytes_length s),
      s'.overwrite_bytes (enc_bytes_length s')]
    exact enc_congr (by simp [hl]) fun i hi => by simpa only [State.bytes_getElem?] using h i hi
  · intro h ht ht'
    cases ((Completes.enci s h2 h3).exec_eq (.inl hf)).symm.trans ht
    cases ((Completes.enci s' h2' h3').exec_eq (.inl hf')).symm.trans ht'
    rw [State.answer_bytes, State.answer_bytes, s.overwrite_bytes (encI_bytes_length h3),
      s'.overwrite_bytes (encI_bytes_length h3')]
    refine encI_congr (bytes_length_eq h2 h3) (hl ▸ bytes_length_eq h2' h3') fun i hi => ?_
    simpa only [State.bytes_getElem?] using h i hi

end Sys2Proof.Machine

/-! ### The decode function byte by byte (R105, R106): what it checks, and what it keeps -/

namespace Sys2Proof.Machine

variable {s t : List Byte} {k : Nat}

theorem dec_eq_ok_iff : dec s = .ok t ↔ checksumsMatch s = true ∧ t = dataBytes s := by
  rcases dec_cases s with ⟨hm, hd⟩ | ⟨hm, hd⟩ <;> simp [hm, hd, eq_comm]

theorem dec_eq_checksumError_iff : dec s = .checksumError ↔ checksumsMatch s = false := by
  rcases dec_cases s with ⟨hm, hd⟩ | ⟨hm, hd⟩ <;> simp [hm, hd]

/-- The check of a framed word whose bytes are there. -/
theorem wordMatches_iff_getD {j : Nat} (h : 3 * j + 2 < s.length) :
    WordMatches s j ↔ crc8Word (s.getD (3 * j) 0) (s.getD (3 * j + 1) 0) = s.getD (3 * j + 2) 0 := by
  have h0 : 3 * j < s.length := by omega
  have h1 : 3 * j + 1 < s.length := by omega
  simp [WordMatches, List.getD_eq_getElem?_getD, h, h0, h1]

/-- Where decode puts the two data bytes of framed word `j` (R105). -/
theorem dataBytes_getElem? {j : Nat} (h : 3 * j + 2 < s.length) :
    (dataBytes s)[2 * j]? = s[3 * j]? ∧ (dataBytes s)[2 * j + 1]? = s[3 * j + 1]? := by
  induction j generalizing s with
  | zero =>
    match s, h with
    | d0 :: d1 :: c :: s, _ => simp [dataBytes]
  | succ j ih =>
    match s, h with
    | d0 :: d1 :: c :: s, h =>
      have hs : 3 * j + 2 < s.length := by simp only [List.length_cons] at h; omega
      simpa [dataBytes, Nat.mul_succ] using ih hs

/-- The data bytes of `k` framed words are told by their number and by where each word's two bytes stand. -/
theorem eq_dataBytes_iff (h : s.length = 3 * k) :
    t = dataBytes s ↔ t.length = 2 * k ∧ ∀ j, j < k → t[2 * j]? = s[3 * j]? ∧ t[2 * j + 1]? = s[3 * j + 1]? := by
  constructor
  · rintro rfl
    exact ⟨dataBytes_length h, fun j hj => dataBytes_getElem? (by omega)⟩
  · rintro ⟨hlen, hword⟩
    refine List.ext_getElem? fun i => ?_
    obtain ⟨j, hi⟩ := i.even_or_odd'
    by_cases hj : j < k
    · obtain ⟨ht0, ht1⟩ := hword j hj
      obtain ⟨hd0, hd1⟩ := dataBytes_getElem? (s := s) (j := j) (by omega)
      rcases hi with rfl | rfl
      · rw [ht0, hd0]
      · rw [ht1, hd1]
    · rw [List.getElem?_eq_none (by omega), List.getElem?_eq_none (by rw [dataBytes_length h]; omega)]

/-- Settles O13: decode succeeds when every word matches, and its result is told byte by byte; the error is the other case. -/
theorem decodeIsAllOrNothing : Obligations.DecodeIsAllOrNothing := by
  intro s k hs
  have hmatch : checksumsMatch s = true ↔
      ∀ j, j < k → crc8Word (s.getD (3 * j) 0) (s.getD (3 * j + 1) 0) = s.getD (3 * j + 2) 0 := by
    rw [checksumsMatch_iff hs]
    exact forall₂_congr fun j hj => wordMatches_iff_getD (by omega)
  refine ⟨fun t => ?_, ?_⟩
  · rw [dec_eq_ok_iff, hmatch, eq_dataBytes_iff hs]
  · rw [dec_eq_checksumError_iff, ← Bool.not_eq_true, hmatch]
    simp only [not_forall, exists_prop, ne_eq]

/-! #### The compaction in place (R108) -/

/-- Every removal after the first leaves the first word's data bytes where they are, and compacts what stands behind them. -/
theorem compacted_cons_succ (d0 d1 c : Byte) (s : List Byte) (j : Nat) :
    compacted (d0 :: d1 :: c :: s) (j + 1) = d0 :: d1 :: compacted s j := by
  induction j with
  | zero => rfl
  | succ j ih => rw [compacted, ih, Nat.mul_succ]; rfl

/-- After `j` removals word `j` and all behind it stand `j` places lower, unchanged. -/
theorem compacted_getElem? {j : Nat} (h : 3 * j ≤ s.length) (i : Nat) : (compacted s j)[2 * j + i]? = s[3 * j + i]? := by
  induction j generalizing s with
  | zero => rfl
  | succ j ih =>
    match s, h with
    | d0 :: d1 :: c :: s, h =>
      have hs : 3 * j ≤ s.length := by simp only [List.length_cons] at h; omega
      rw [compacted_cons_succ, show 2 * (j + 1) + i = 2 * j + i + 1 + 1 by omega,
        show 3 * (j + 1) + i = 3 * j + i + 1 + 1 + 1 by omega]
      exact ih hs

theorem compacted_eq_dataBytes (h : s.length = 3 * k) : compacted s k = dataBytes s := by
  induction k generalizing s with
  | zero => rw [List.eq_nil_of_length_eq_zero h]; rfl
  | succ k ih =>
    match s, h with
    | d0 :: d1 :: c :: s, h =>
      have hs : s.length = 3 * k := by simp only [List.length_cons] at h; omega
      rw [compacted_cons_succ, ih hs, dataBytes]

/-- Settles O14, by induction on the removals: each acts behind the words compacted before it. -/
theorem inPlaceCompactionKeepsLaterWords : Obligations.InPlaceCompactionKeepsLaterWords :=
  fun _ _ hs => ⟨fun _ hj i _ => compacted_getElem? (by omega) i, compacted_eq_dataBytes hs⟩

/-! #### Decode after encode (R111) -/

theorem checksumsMatch_fillSlots (s : List Byte) : checksumsMatch (fillSlots s) = true := by
  induction s using fillSlots.induct with
  | case1 d0 d1 p body ih => simp [fillSlots, checksumsMatch, ih]
  | case2 rest hrest => rw [fillSlots.eq_2 rest hrest, checksumsMatch.eq_2 rest hrest]

/-- Filling the slots leaves the data bytes. -/
theorem dataBytes_fillSlots (s : List Byte) : dataBytes (fillSlots s) = dataBytes s := by
  induction s using fillSlots.induct with
  | case1 d0 d1 p body ih => simp [fillSlots, dataBytes, ih]
  | case2 rest hrest => rw [fillSlots.eq_2 rest hrest]

/-- The body of an encoded buffer is the old body with its slots filled. -/
theorem enc_drop_two (s : List Byte) : (enc s).drop 2 = fillSlots (s.drop 2) := by
  match s with
  | [] => rfl
  | [_] => rfl
  | _ :: _ :: _ => rfl

/-- Settles O15: framed words and filled slots carry matching checksums, and stripping these leaves the data. -/
theorem encodeThenDecodeReturnsTheData : Obligations.EncodeThenDecodeReturnsTheData := by
  refine ⟨fun c0 c1 d k hd => ?_, fun s k _ => ?_⟩
  · exact dec_eq_ok_iff.mpr ⟨checksumsMatch_frameWords d, (dataBytes_frameWords hd).symm⟩
  · rw [enc_drop_two]
    exact dec_eq_ok_iff.mpr ⟨checksumsMatch_fillSlots _, (dataBytes_fillSlots _).symm⟩

end Sys2Proof.Machine

/-! ### DEC (R109, R110) -/

namespace Sys2Proof.Machine
open Sys2Proof.Claim

variable {s : State}

/-- A mismatch in an admitted frame: `CKERR` and the response, nothing else (R110). -/
theorem exec_dec_of_mismatch (hf : s.fault = false) (h3 : s.len.toNat % 3 = 0) (hm : checksumsMatch s.bytes = false) :
    exec .dec s = .next ((s.setCkerr true).answer .ckerr 0x00) :=
  execDec_next.mpr (.inr (.inr (.inr ⟨hf, h3, hm, rfl⟩)))

/-- `LEN` counts the data bytes of every buffer. -/
theorem dataBytes_bytes_length_lt (s : State) : (dataBytes s.bytes).length < 256 :=
  calc (dataBytes s.bytes).length ≤ s.bytes.length := dataBytes_length_le s.bytes
    _ = s.len.toNat := s.bytes_length
    _ < 256 := s.len.isLt

/-- Settles O12: the length fault, the checksum error and the completion of DEC, each from its condition; what the completion
leaves is `dataBytes` of the old bytes. The word 0x400000 is the encoder's, and the one legal word with its operation code. -/
theorem decValidatesThenStrips : Obligations.DecValidatesThenStrips := by
  refine ⟨fun s hf h3 => (Raises.dec s h3).exec_eq hf,
    fun s hf h3 hm => exec_dec_of_mismatch hf h3 ((exists_mismatch_iff h3).mp hm), fun s hf h3 hm => ?_,
    fun s hf => exec_of_fault hf (by simp), spells_encode .dec, malformedFaults_of_format_N rfl⟩
  have hmatch : checksumsMatch s.bytes = true := by
    rw [← Bool.not_eq_false, ← exists_mismatch_iff h3]
    exact fun ⟨j, hj, hj'⟩ => hm j hj hj'
  have hbytes : (s.load (dataBytes s.bytes)).bytes = dataBytes s.bytes := s.load_bytes (dataBytes_bytes_length_lt s)
  have hlen : s.bytes.length = 3 * (s.len.toNat / 3) := by rw [s.bytes_length]; omega
  refine ⟨_, (Completes.dec s h3 hmatch).exec_eq (.inl hf), rfl, ?_, fun j hj => ?_, ?_⟩
  · rw [State.answer_len, State.setCkerr_len, ← State.bytes_length, hbytes, dataBytes_length hlen]
  · simp only [State.answer_byte?, State.setCkerr_byte?]
    rw [← State.bytes_getElem?, ← State.bytes_getElem?, ← State.bytes_getElem?, ← State.bytes_getElem?, hbytes]
    exact dataBytes_getElem? (by omega)
  · rw [State.answer_bytes, State.setCkerr_bytes, hbytes]
    exact dec_eq_ok_iff.mpr ⟨hmatch, rfl⟩

end Sys2Proof.Machine

/-! ### Error patterns on a framed word (R86 (c), R112) -/

namespace Sys2Proof.Machine
open Sys2Proof.Claim

/-! #### The weight of a byte, and its parity, which every iteration of R80 keeps -/

theorem ones_eq_zero_iff {x : Byte} : ones x = 0 ↔ x = 0 := by
  constructor
  · intro h
    refine BitVec.eq_of_getLsbD_eq fun i hi => ?_
    simpa using List.countP_eq_zero.mp h i (List.mem_range.mpr hi)
  · rintro rfl
    rfl

/-- Where both patterns have a bit set, exclusive or drops two. -/
theorem countP_xor_mod_two {α : Type} (p q : α → Bool) (l : List α) :
    l.countP (fun a => p a ^^ q a) % 2 = (l.countP p + l.countP q) % 2 := by
  induction l with
  | nil => rfl
  | cons a l ih =>
    simp only [List.countP_cons]
    cases p a <;> cases q a <;> simp <;> omega

theorem ones_xor_mod_two (x y : Byte) : ones (x ^^^ y) % 2 = (ones x + ones y) % 2 := by
  simp only [ones, BitVec.getLsbD_xor]
  exact countP_xor_mod_two _ _ _

/-- A left shift drops the top bit and keeps the others. -/
theorem ones_shiftLeft_one (x : Byte) : ones (x <<< 1) + (x.getLsbD 7).toNat = ones x := by
  have hlow : ones (x <<< 1) = (List.range 7).countP fun i => x.getLsbD i := by
    rw [ones, List.range_succ_eq_map, List.countP_cons_of_neg (by simp), List.countP_map]
    refine List.countP_congr fun i hi => ?_
    simp [Nat.succ_lt_succ (List.mem_range.mp hi)]
  rw [hlow, ones, List.range_succ (n := 7), List.countP_append, List.countP_singleton]
  cases x.getLsbD 7 <;> rfl

/-- The iteration drops the top bit where it adds the three bits of the polynomial, so it keeps the parity. -/
theorem ones_crc8Shift_mod_two (x : Byte) : ones (crc8Shift x) % 2 = ones x % 2 := by
  have hshift := ones_shiftLeft_one x
  have hpoly (p : Bool) : ones (if p then Config.poly else 0) % 2 = p.toNat := by cases p <;> decide
  have htop := hpoly (x.getLsbD 7)
  rw [crc8Shift_eq_xor, ones_xor_mod_two]
  omega

theorem ones_crcTable_mod_two (x : Byte) : ones (crcTable x) % 2 = ones x % 2 := by
  rw [crcTable_eq]
  exact congrFun (Function.iterate_invariant (g := fun x => ones x % 2) (funext ones_crc8Shift_mod_two) 8) x

theorem ones_crcError_mod_two (e0 e1 : Byte) : ones (crcError e0 e1) % 2 = (ones e0 + ones e1) % 2 := by
  have h0 := ones_crcTable_mod_two e0
  rw [crcError, ones_crcTable_mod_two, ones_xor_mod_two]
  omega

/-! #### Patterns of up to three bits -/

theorem crcError_zero_left (e : Byte) : crcError 0 e = crcTable e := by
  rw [crcError, crcTable_eq_zero_iff.mpr rfl]
  exact congrArg crcTable BitVec.zero_xor

theorem crcError_zero_right (e : Byte) : crcError e 0 = crcTable (crcTable e) :=
  congrArg crcTable BitVec.xor_zero

theorem ones_crcTable_eq_zero_iff {e : Byte} : ones (crcTable e) = 0 ↔ ones e = 0 := by
  rw [ones_eq_zero_iff, ones_eq_zero_iff, crcTable_eq_zero_iff]

/-- A single bit has a table value, and a table value of that, of more than one bit. -/
theorem ones_crcTable_of_ones_eq_one {e : Byte} (h : ones e = 1) :
    ones (crcTable e) ≠ 1 ∧ ones (crcTable (crcTable e)) ≠ 1 := by
  revert e
  decide +kernel

/-- A pattern the checksum does not see has an even number of bits, and two are too few: within one byte the table shows
them, and one bit in each of two bytes would need a table value of one bit. -/
theorem ne_crcError_of_ones_le_three {e0 e1 ec : Byte} (hpos : 1 ≤ ones e0 + ones e1 + ones ec)
    (hle : ones e0 + ones e1 + ones ec ≤ 3) : ec ≠ crcError e0 e1 := by
  rintro rfl
  have hpar := ones_crcError_mod_two e0 e1
  have htwo : ones e0 + ones e1 + ones (crcError e0 e1) = 2 := by omega
  by_cases h0 : ones e0 = 0
  · rw [ones_eq_zero_iff.mp h0, crcError_zero_left, ones_eq_zero_iff.mpr rfl] at htwo
    have hone : ones e1 = 1 → _ := ones_crcTable_of_ones_eq_one
    have hzero := ones_crcTable_eq_zero_iff (e := e1)
    omega
  · by_cases h1 : ones e1 = 0
    · rw [ones_eq_zero_iff.mp h1, crcError_zero_right, ones_eq_zero_iff.mpr rfl] at htwo
      have hone : ones e0 = 1 → _ := ones_crcTable_of_ones_eq_one
      have hzero := ones_crcTable_eq_zero_iff (e := e0)
      have hzero' := ones_crcTable_eq_zero_iff (e := crcTable e0)
      omega
    · have hunseen : e1 = crcTable e0 := crcError_eq_zero_iff.mp (ones_eq_zero_iff.mp (by omega))
      have hone := ones_crcTable_of_ones_eq_one (e := e0) (by omega)
      rw [← hunseen] at hone
      omega

/-! #### The pattern laid on a frame -/

theorem corrupted_cons_zero (d0 d1 c : Byte) (s : List Byte) (e0 e1 ec : Byte) :
    corrupted (d0 :: d1 :: c :: s) 0 e0 e1 ec = (d0 ^^^ e0) :: (d1 ^^^ e1) :: (c ^^^ ec) :: s := rfl

theorem corrupted_cons_succ (d0 d1 c : Byte) (s : List Byte) (j : Nat) (e0 e1 ec : Byte) :
    corrupted (d0 :: d1 :: c :: s) (j + 1) e0 e1 ec = d0 :: d1 :: c :: corrupted s j e0 e1 ec := rfl

/-- A pattern on one word of a valid frame stays unseen exactly when it changes the checksum byte as it changes the checksum
(R86 (c)). -/
theorem checksumsMatch_corrupted_iff {s : List Byte} {j : Nat} (hj : 3 * j + 2 < s.length) (hm : checksumsMatch s = true)
    (e0 e1 ec : Byte) : checksumsMatch (corrupted s j e0 e1 ec) = true ↔ ec = crcError e0 e1 := by
  induction j generalizing s with
  | zero =>
    match s, hj with
    | d0 :: d1 :: c :: s, _ =>
      obtain ⟨hc, hrest⟩ : crc8Word d0 d1 = c ∧ checksumsMatch s = true := by simpa [checksumsMatch] using hm
      rw [corrupted_cons_zero, checksumsMatch, hrest, Bool.and_true, beq_iff_eq, crc8Word_xor, hc, BitVec.xor_right_inj,
        eq_comm]
  | succ j ih =>
    match s, hj with
    | d0 :: d1 :: c :: s, hj =>
      have hs : 3 * j + 2 < s.length := by simp only [List.length_cons] at hj; omega
      obtain ⟨hc, hrest⟩ : crc8Word d0 d1 = c ∧ checksumsMatch s = true := by simpa [checksumsMatch] using hm
      rw [corrupted_cons_succ]
      simpa [checksumsMatch, hc] using ih hs hrest

theorem dec_corrupted_iff {s : List Byte} {j : Nat} (hj : 3 * j + 2 < s.length) (hm : checksumsMatch s = true)
    (e0 e1 ec : Byte) : dec (corrupted s j e0 e1 ec) = .checksumError ↔ ec ≠ crcError e0 e1 := by
  rw [dec_eq_checksumError_iff, ← Bool.not_eq_true, checksumsMatch_corrupted_iff hj hm]

/-- Settles O16: the exact condition is `dec_corrupted_iff`; a pattern within one byte breaks it because the table is zero at
zero only, and a pattern of up to three bits by its weight. -/
theorem tamperedFramesAreRejected : Obligations.TamperedFramesAreRejected := by
  intro s t k j e0 e1 ec hs hj hdec
  obtain ⟨hm, -⟩ := dec_eq_ok_iff.mp hdec
  rw [dec_corrupted_iff (by omega) hm]
  refine ⟨Iff.rfl, ?_, ?_, ?_, ne_crcError_of_ones_le_three⟩
  · rintro rfl rfl hc
    rwa [crcError_eq_zero_iff.mpr (crcTable_eq_zero_iff.mpr rfl).symm]
  · rintro h0 rfl rfl h
    exact h0 (crcTable_eq_zero_iff.mp (crcError_eq_zero_iff.mp h.symm).symm)
  · rintro rfl h1 rfl h
    exact h1 ((crcError_eq_zero_iff.mp h.symm).trans (crcTable_eq_zero_iff.mpr rfl))

end Sys2Proof.Machine

/-! ### What CLRB, PUSH, WRB, RDB, GETL and GETS share: must-be-zero fields, words, bytes after a write (R51, R121 to R123) -/

namespace Sys2Proof.Machine
open Sys2Proof.Claim

variable {s : State}

/-- An operation code with a format faults, or is refused, on every word that breaks what the format demands (R51, R53). -/
theorem malformedFaults_of_format {op : BitVec 4} {fmt : Format} (h : formatOf op = some fmt) :
    MalformedFaults op fun w => w.extractLsb' 16 4 = 0 ∧ (fmt.aMustBeZero = true → w.extractLsb' 8 8 = 0) ∧
      (fmt.bMustBeZero = true → w.extractLsb' 0 8 = 0) := by
  refine malformedFaults_of_illegalWord fun w hop hz => illegalWord_iff.mpr fun hlegal => hz ?_
  obtain ⟨fmt', hfmt', hzeros⟩ := Fields.check_eq_none_iff.mp hlegal
  have hfop : (fieldsOf w).op = op := hop
  rw [hfop, h] at hfmt'
  cases hfmt'
  exact hzeros

theorem encode_push (val : Byte) : encode (.push val) = 0x600000 ||| val.setWidth 24 := by
  rw [encode_eq_or]
  simp [Instr.fields]

theorem encode_wrb (idx val : Byte) :
    encode (.wrb idx val) = 0x700000 ||| (idx.setWidth 24 <<< 8) ||| val.setWidth 24 := by
  rw [encode_eq_or]
  simp [Instr.fields]

theorem encode_rdb (idx : Byte) : encode (.rdb idx) = 0x800000 ||| (idx.setWidth 24 <<< 8) := by
  rw [encode_eq_or]
  simp [Instr.fields]

/-- One byte after an append that does not overflow. -/
theorem State.append_byte? (hs : s.Inv) (h : s.len.toNat ≠ Config.bufSize) (val : Byte) (i : Nat) :
    (s.append val).byte? i = if i = s.len.toNat then some val else s.byte? i := by
  rw [State.byte?, State.append_len_toNat hs h, State.append_buf, Memory.read_write _ i val hs.buf_wf]
  rcases Nat.lt_trichotomy i s.len.toNat with hlt | rfl | hgt
  · rw [if_pos (Nat.lt_succ_of_lt hlt), if_neg (Nat.ne_of_lt hlt), if_neg (Nat.ne_of_lt hlt), s.byte?_of_lt hlt]
  · simp
  · rw [if_neg (by omega), if_neg (Nat.ne_of_gt hgt), s.byte?_of_le (Nat.le_of_lt hgt)]

/-- The byte sequence after an append that does not overflow. -/
theorem State.append_bytes (hs : s.Inv) (h : s.len.toNat ≠ Config.bufSize) (val : Byte) :
    (s.append val).bytes = s.bytes ++ [val] := by
  apply List.ext_getElem?
  intro i
  rw [State.bytes_getElem?, State.append_byte? hs h]
  rcases Nat.lt_trichotomy i s.len.toNat with hlt | rfl | hgt
  · rw [if_neg (Nat.ne_of_lt hlt), List.getElem?_append_left (by simpa using hlt), State.bytes_getElem?]
  · simp
  · rw [if_neg (Nat.ne_of_gt hgt), s.byte?_of_le (Nat.le_of_lt hgt), List.getElem?_eq_none (by simpa using hgt)]

/-- A write within the buffer completes (R122). -/
theorem exec_wrb {idx : Byte} (hf : s.fault = false) (h : idx.toNat < s.len.toNat) (val : Byte) :
    exec (.wrb idx val) s = .next ((s.store idx.toNat val).answer .ok 0x00) :=
  (Completes.wrb s idx val h).exec_eq (.inl hf)

/-- A read within the buffer completes (R123). -/
theorem exec_rdb {idx : Byte} (hf : s.fault = false) (h : idx.toNat < s.len.toNat) :
    exec (.rdb idx) s = .next (s.answer .ok (s.buf.read idx.toNat)) :=
  (Completes.rdb s idx h).exec_eq (.inl hf)

/-- `STATUS` as a number (R125). -/
theorem State.status_toNat (s : State) :
    s.status.toNat = s.ckerr.toNat + 2 * s.fault.toNat + 4 * s.fcause.toNat := by
  rw [State.status_eq_append]
  generalize s.fcause = c
  cases s.fault <;> cases s.ckerr <;> revert c <;> decide

end Sys2Proof.Machine

/-! ### CLRB, PUSH, WRB, RDB, GETL and GETS (R120 to R125) -/

namespace Sys2Proof.Machine
open Sys2Proof.Claim

/-- Settles O17: CLRB completes in the cleared state; the word 0x500000 is the encoder's, and the one legal word with its
operation code. -/
theorem clrbEmptiesTheBuffer : Obligations.ClrbEmptiesTheBuffer :=
  ⟨fun s hf => ⟨_, (Completes.clrb s).exec_eq (.inl hf), rfl, rfl, rfl⟩, fun _ hf => exec_of_fault hf (by simp),
    spells_encode .clrb, malformedFaults_of_format_N rfl⟩

/-- Settles O18: PUSH completes by an append below the capacity and overflows at it; its format leaves the second operand
free. -/
theorem pushAppendsOneByte : Obligations.PushAppendsOneByte := by
  refine ⟨fun s val hs hf h => ⟨_, (Completes.push s val h).exec_eq (.inl hf), rfl, State.append_len_toNat hs h val, ?_,
      fun a ha => ?_, State.append_bytes hs h val⟩,
    fun s val hf h => (Raises.push s val h).exec_eq hf, fun val s hf => exec_of_fault hf (by simp), fun val => ?_, ?_⟩
  · rw [State.answer_byte?, State.append_byte? hs h, if_pos rfl]
  · rw [State.answer_byte?, State.append_byte? hs h, if_neg ha]
  · rw [← encode_push]
    exact spells_encode (.push val)
  · simpa [Format.aMustBeZero, Format.bMustBeZero] using malformedFaults_of_format (op := 0x6) (fmt := .V) rfl

/-- Settles O19: WRB completes by a store below `LEN` and faults from there up; its format leaves both operands free. -/
theorem wrbOverwritesOneByte : Obligations.WrbOverwritesOneByte := by
  refine ⟨fun s idx val hs hf h => ⟨_, exec_wrb hf h val, rfl, ?_, fun a ha => ?_⟩,
    fun s idx val hf h => (Raises.wrb s idx val h).exec_eq hf, fun idx val s hf => exec_of_fault hf (by simp),
    fun idx val => ?_, ?_⟩
  · rw [State.answer_byte?, s.store_byte? hs.buf_wf, if_pos ⟨rfl, h⟩]
  · rw [State.answer_byte?, s.store_byte? hs.buf_wf, if_neg fun ⟨hai, _⟩ => ha hai]
  · rw [← encode_wrb]
    exact spells_encode (.wrb idx val)
  · simpa [Format.aMustBeZero, Format.bMustBeZero] using malformedFaults_of_format (op := 0x7) (fmt := .W) rfl

/-- Settles O20: RDB completes in its own state below `LEN` and faults from there up; its format leaves the first operand
free. -/
theorem rdbAnswersTheByte : Obligations.RdbAnswersTheByte := by
  refine ⟨fun s idx hf h => ⟨_, s.byte?_of_lt h, exec_rdb hf h⟩, fun s idx hf h => (Raises.rdb s idx h).exec_eq hf,
    fun idx s hf => exec_of_fault hf (by simp), fun idx => ?_, ?_⟩
  · rw [← encode_rdb]
    exact spells_encode (.rdb idx)
  · simpa [Format.aMustBeZero, Format.bMustBeZero] using malformedFaults_of_format (op := 0x8) (fmt := .I) rfl

/-- Settles O21: GETL completes in its own state; the word 0x900000 is the encoder's, and the one legal word with its operation
code. -/
theorem getlAnswersTheLength : Obligations.GetlAnswersTheLength :=
  ⟨fun s hf => ⟨(Completes.getl s).exec_eq (.inl hf), s.bytes_length⟩, fun _ hf => exec_of_fault hf (by simp),
    spells_encode .getl, malformedFaults_of_format_N rfl⟩

/-- Settles O22: GETS completes in every state, and `STATUS` is the concatenation of its fields; the word 0xA00000 is the
encoder's, and the one legal word with its operation code. -/
theorem getsAnswersTheStatus : Obligations.GetsAnswersTheStatus :=
  ⟨fun s => ⟨s.status, exec_gets s, s.status_toNat⟩, spells_encode .gets, malformedFaults_of_format_N rfl⟩

/-- Settles O23: both reads complete, for a write keeps `LEN`, and the second reads what `Memory.read_write` says. -/
theorem readAfterWrite : Obligations.ReadAfterWrite := by
  intro s t idx idx' val hs hf h h' ht
  cases (exec_wrb hf h val).symm.trans ht
  have hread : (s.store idx.toNat val).buf.read idx'.toNat = if idx' = idx then val else s.buf.read idx'.toNat := by
    rw [State.store_buf, Memory.read_write _ _ _ hs.buf_wf]
    simp only [BitVec.toNat_inj]
  exact ⟨_, exec_rdb hf h', hread ▸ exec_rdb hf h'⟩

end Sys2Proof.Machine

/-! ### Outcomes and faults (R164 to R167) -/

namespace Sys2Proof.Machine
open Sys2Proof.Claim

variable {s t : State}

/-- Completing an instruction writes no cause (R163). -/
theorem Completes.fcause_eq {i : Instr} {u : State} {v : Byte} (h : Completes i s u v) : u.fcause = s.fcause := by
  cases h <;> rfl

/-- Every state whose next move is a request is one that issues it. -/
theorem issuing_of_pending {w : ReqWord} {rest : List HostEvent} (h : s.pending = .request w :: rest) :
    issuing { s with pending := rest } w = s := by
  simp only [issuing, ← h]

/-- A run goes on from the state its first step leaves. -/
theorem run_succ_of_step (h : step s = .next t) (n : Nat) : run (n + 1) s = run n t := by
  simp only [run, h]

/-- What the faulted block answers to a request word (R166). -/
def State.faultedAnswer (s : State) (w : ReqWord) : Response :=
  if w = 0xA00000 then ⟨.ok, s.status⟩ else ⟨.fault, 0x00⟩

/-- The faulted block's answer to a request is all that the request changes: an illegal word and every operation but GETS are
refused, and GETS only reads. -/
theorem step_issuing_of_fault (hf : s.fault = true) (w : ReqWord) :
    step (issuing s w) = .next { s with responses := s.responses ++ [s.faultedAnswer w] } := by
  by_cases hw : w = 0xA00000
  · subst hw
    exact (spells_encode .gets s).trans (exec_gets s)
  · have hrefused : step (issuing s w) = .next (s.answer .fault 0x00) := by
      by_cases hill : IllegalWord w
      · rw [step_issuing_of_illegalWord hill]
        exact illegalRequest_next.mpr (.inl ⟨hf, rfl⟩)
      · obtain ⟨i, rfl⟩ := not_illegalWord_iff_exists_encode.mp hill
        have hi : i ≠ .gets := by rintro rfl; exact hw rfl
        rw [spells_encode, exec_of_fault hf hi]
    rw [hrefused, State.faultedAnswer, if_neg hw, State.answer]

/-- The faulted block serves a queue of requests by answering each from the one state it stays in. -/
theorem run_requests_of_fault (hf : s.fault = true) (ws : List ReqWord) :
    run ws.length { s with pending := ws.map .request ++ s.pending } =
      .next { s with responses := s.responses ++ ws.map s.faultedAnswer } := by
  induction ws generalizing s with
  | nil => simp [run]
  | cons w ws ih =>
    have hstep := step_issuing_of_fault (s := { s with pending := ws.map .request ++ s.pending }) hf w
    have hrest := ih (s := { s with responses := s.responses ++ [s.faultedAnswer w] }) hf
    calc run (w :: ws).length { s with pending := (w :: ws).map .request ++ s.pending }
        = run ws.length { s with pending := ws.map .request ++ s.pending,
                                 responses := s.responses ++ [s.faultedAnswer w] } :=
          run_succ_of_step hstep ws.length
      _ = .next { s with responses := (s.responses ++ [s.faultedAnswer w]) ++ ws.map s.faultedAnswer } := hrest
      _ = .next { s with responses := s.responses ++ (w :: ws).map s.faultedAnswer } := by
          rw [List.map_cons, List.append_assoc, List.singleton_append]

/-- Settles O31: `run_requests_of_fault`, by induction on the requests. -/
theorem faultedStateIsFrozen : Obligations.FaultedStateIsFrozen := fun ws _ hf => run_requests_of_fault hf ws

/-- Settles O29: each of the four ends of a request has the outcome R164 names, and the next state that end gives. -/
theorem checksDecideInOrder : Obligations.ChecksDecideInOrder := by
  intro s w
  obtain ⟨t, h⟩ := step_issuing_total s w
  rcases step_issuing_cases h with ⟨hf, ho, rfl⟩ | ⟨-, c, ho, rfl⟩ | ⟨-, -, ho, rfl⟩ | ⟨i, u, v, -, hu, ho, rfl⟩
  · exact ⟨_, 0x00, h, by simp [ho, hf]⟩
  · exact ⟨_, 0x00, h, by simp [ho]⟩
  · exact ⟨_, 0x00, h, by simp [ho]⟩
  · exact ⟨_, v, h, by simp [ho, hu.responses_eq, hu.fcause_eq, hu.fault_eq]⟩

/-- Settles O30: of the four ends of a request only the fault entry writes `FAULT`, and its code is one of R163. -/
theorem faultEntryChangesNothingElse : Obligations.FaultEntryChangesNothingElse := by
  intro s w t hf h ht
  rcases step_issuing_cases h with ⟨hf', -, -⟩ | ⟨-, c, -, rfl⟩ | ⟨-, -, -, rfl⟩ | ⟨i, u, v, -, hu, -, rfl⟩
  · simp [hf] at hf'
  · exact ⟨c.code, c.code_bounds.1, c.code_bounds.2, rfl⟩
  · simp [hf] at ht
  · simp [hu.fault_eq, hf] at ht

/-- Settles O32: an idle step and a request leave the faulted state's elements, and the reset input clears them. -/
theorem onlyResetClearsTheFault : Obligations.OnlyResetClearsTheFault := by
  intro s t hf h
  match hp : s.pending with
  | [] =>
    cases (step_of_pending_nil hp).symm.trans h
    exact .inl ⟨hf, rfl⟩
  | .rst :: rest =>
    cases (step_of_pending_rst hp).symm.trans h
    exact .inr ⟨⟨rest, rfl⟩, rfl, rfl, rfl⟩
  | .request w :: rest =>
    rw [← issuing_of_pending hp] at h
    cases (step_issuing_of_fault (s := { s with pending := rest }) hf w).symm.trans h
    exact .inl ⟨hf, rfl⟩

end Sys2Proof.Machine

/-! ### Runs: the block never halts, and the record only grows (R160, R190) -/

namespace Sys2Proof.Machine
open Sys2Proof.Claim

variable {s t : State}

/-- Every state has a next state, whatever the host's next move is (R160). -/
theorem step_total (s : State) : ∃ t, step s = .next t := by
  match hp : s.pending with
  | [] => exact ⟨_, step_of_pending_nil hp⟩
  | .rst :: _ => exact ⟨_, step_of_pending_rst hp⟩
  | .request w :: rest => exact issuing_of_pending hp ▸ step_issuing_total { s with pending := rest } w

theorem run_total (n : Nat) (s : State) : ∃ t, run n s = .next t := by
  induction n generalizing s with
  | zero => exact ⟨s, rfl⟩
  | succ n ih =>
    obtain ⟨u, hu⟩ := step_total s
    rw [run_succ_of_step hu]
    exact ih u

/-- Settles O33: `run_total`, by induction on the length of the run. -/
theorem theBlockNeverHalts : Obligations.TheBlockNeverHalts := run_total

/-- A step removes no response from the record: only a request adds one, and the reset input keeps them all (R180). -/
theorem step_responses_prefix (h : step s = .next t) : s.responses <+: t.responses := by
  rcases step_cases h with ⟨-, rfl⟩ | ⟨rest, -, rfl⟩ | ⟨w, rest, i, -, -, hi⟩ | ⟨w, rest, e, -, -, he⟩
  · exact List.prefix_rfl
  · exact List.prefix_rfl
  · obtain ⟨r, hr⟩ := exec_responses hi
    exact ⟨[r], hr.symm⟩
  · rcases illegalRequest_next.mp he with ⟨-, rfl⟩ | ⟨-, rfl⟩
    · exact List.prefix_append ..
    · exact List.prefix_append ..

theorem run_responses_prefix {n : Nat} (h : run n s = .next t) : s.responses <+: t.responses := by
  induction n generalizing s with
  | zero => cases h; exact List.prefix_rfl
  | succ n ih =>
    obtain ⟨u, hu⟩ := step_total s
    rw [run_succ_of_step hu] at h
    exact (step_responses_prefix hu).trans (ih h)

/-- A run whose record extends one that has gone wrong has gone wrong (R190). -/
theorem State.GoneWrong.of_prefix (hs : s.GoneWrong) (h : s.responses <+: t.responses) : t.GoneWrong := by
  obtain ⟨r, hr, hres⟩ := hs
  exact ⟨r, h.mem hr, hres⟩

/-- A step that raises a fault puts a response FAULT in the record: idling and the reset input raise none, and a request that
does leaves the fault entry (R165). -/
theorem goneWrong_of_step_faults (hf : s.fault = false) (h : step s = .next t) (ht : t.fault = true) : t.GoneWrong := by
  match hp : s.pending with
  | [] =>
    cases (step_of_pending_nil hp).symm.trans h
    simp [hf] at ht
  | .rst :: rest =>
    cases (step_of_pending_rst hp).symm.trans h
    cases ht
  | .request w :: rest =>
    rw [← issuing_of_pending hp] at h
    obtain ⟨code, -, -, rfl⟩ := faultEntryChangesNothingElse { s with pending := rest } w t hf h ht
    exact ⟨⟨.fault, 0x00⟩, List.mem_append_right _ (List.mem_singleton_self _), rfl⟩

/-- Settles O34: the record of a run extends the one it starts from, and a step that raises a fault records it. -/
theorem aFaultedRunStaysWrong : Obligations.AFaultedRunStaysWrong :=
  ⟨fun _ _ _ hs h => hs.of_prefix (run_responses_prefix h), fun _ _ => goneWrong_of_step_faults⟩

end Sys2Proof.Machine
